-- ==== Sys2Proof/Syntax.lean ====
section
/-! DEFINITION. The commands: one constructor for each row of spec/opcode_table.json (R113). -/
namespace Sys2Proof

/-- A command with the fields its opcode allows (R111, R112). Every other operand comes from the snapshot (R119). -/
inductive Instr where
  /-- NOP, OP 0x00 (R273). -/
  | nop
  /-- SEED.KEY, OP 0x01 (R234); `b` is the field B, the base select. -/
  | seedKey (b : Bool)
  /-- SEED.INT, OP 0x02 (R235); `b` is the field B, the base select. -/
  | seedInt (b : Bool)
  /-- SEED.RANGE, OP 0x03 (R236); the fields S (strict), U (64-bit input words) and L (number of input words). -/
  | seedRange (strict : Bool) (wide : Bool) (len : BitVec 4)
  /-- SEED.SEQ, OP 0x04 (R237). -/
  | seedSeq
  /-- RESTART, OP 0x05 (R238). -/
  | restart
  /-- LOAD, OP 0x06 (R240). -/
  | load
  /-- NEXT, OP 0x08 (R270). -/
  | next
  /-- DISCARD, OP 0x09 (R271). -/
  | discard
  /-- PRF.APPLY, OP 0x0C (R207). -/
  | prfApply
  /-- CLRST, OP 0x0F (R274). -/
  | clrst
  deriving DecidableEq, Repr

end Sys2Proof
end

