-- ==== Sys2Proof/WellFormed.lean ====
section
/-! DEFINITION. Which terms of Instr a command word can stand for. The fields' widths are in their types; one check is
left, L at most 8 (R111, R117). -/
namespace Sys2Proof

/-- A SEED.RANGE names at most the eight DIN registers (R117). -/
def Instr.wellFormed : Instr → Bool
  | .nop => true
  | .seedKey _ => true
  | .seedInt _ => true
  | .seedRange _ _ len => decide (len.toNat ≤ 8)
  | .seedSeq => true
  | .restart => true
  | .load => true
  | .next => true
  | .discard => true
  | .prfApply => true
  | .clrst => true

end Sys2Proof
end

