-- ==== Sys2Proof/Word.lean ====
section
/-! DEFINITION. The block's words: a 64-bit register of the port, a register index, and the groups of four and of
eight registers that hold word sequences (R35, R36). -/
namespace Sys2Proof

/-- One register of the port: 64 bits (R35). -/
abbrev Reg := BitVec 64

/-- A register index: 6 bits (R35, R81). -/
abbrev Index := BitVec 6

/-- A word sequence in storage order, word 0 first and least significant, every word of `v` bits (R19). -/
abbrev Seq (v : Nat) := List (BitVec v)

/-- A group of four registers: KEYIN0-3, CTRIN0-3, RESULT0-3, BOUT0-3, and the places of ST.KEY, ST.CTR and ST.BLK
(R35, R36). Register n of a group holds word n of its sequence. -/
structure Quad where
  w0 : Reg
  w1 : Reg
  w2 : Reg
  w3 : Reg
  deriving DecidableEq, Repr

/-- A group of eight registers: DIN0-7 (R43). -/
structure Oct where
  d0 : Reg
  d1 : Reg
  d2 : Reg
  d3 : Reg
  d4 : Reg
  d5 : Reg
  d6 : Reg
  d7 : Reg
  deriving DecidableEq, Repr

/-- Four registers of zeros. -/
def Quad.zero : Quad := ⟨0, 0, 0, 0⟩

/-- Eight registers of zeros. -/
def Oct.zero : Oct := ⟨0, 0, 0, 0, 0, 0, 0, 0⟩

end Sys2Proof
end

