-- ==== Sys2Proof/Decode.lean ====
section
/-! DEFINITION. The command word (30_encoding.md): decoding in the order of R114, and the encoder. -/
namespace Sys2Proof

/-- Why a command word is illegal; each is an ILLEGAL_COMMAND of its own detail (R114, R302). -/
inductive DecodeError where
  /-- The opcode is unassigned: DETAIL 0x01 (R115). -/
  | unassignedOpcode
  /-- A reserved bit, or a field bit the opcode does not allow, is set: DETAIL 0x02 (R116). -/
  | reservedBit
  /-- SEED.RANGE with L above 8: DETAIL 0x03 (R117). -/
  | lengthOutOfRange
  deriving DecidableEq, Repr

/-- OP, bits 7:0 (R111). -/
def opField (cw : Reg) : BitVec 8 := cw.extractLsb' 0 8

/-- B, bit 8 (R111). -/
def bField (cw : Reg) : Bool := cw.getLsbD 8

/-- S, bit 9 (R111). -/
def sField (cw : Reg) : Bool := cw.getLsbD 9

/-- U, bit 10 (R111). -/
def uField (cw : Reg) : Bool := cw.getLsbD 10

/-- L, bits 19:16 (R111). -/
def lField (cw : Reg) : BitVec 4 := cw.extractLsb' 16 4

/-- ALLOWED: the bits outside OP that an opcode lets vary (R112). -/
def allowedBits (op : BitVec 8) : Reg :=
  if op = 0x01 ∨ op = 0x02 then 0x00000100
  else if op = 0x03 then 0x000F0600
  else 0

/-- The command an assigned opcode stands for, with its fields read from the word; none for the opcodes of R115
(R113). -/
def commandOf (cw : Reg) : Option Instr :=
  let op := opField cw
  if op = 0x00 then some .nop
  else if op = 0x01 then some (.seedKey (bField cw))
  else if op = 0x02 then some (.seedInt (bField cw))
  else if op = 0x03 then some (.seedRange (sField cw) (uField cw) (lField cw))
  else if op = 0x04 then some .seedSeq
  else if op = 0x05 then some .restart
  else if op = 0x06 then some .load
  else if op = 0x08 then some .next
  else if op = 0x09 then some .discard
  else if op = 0x0C then some .prfApply
  else if op = 0x0F then some .clrst
  else none

/-- Decoding a command word: the three checks of R114 in their order, total on every 64-bit word. -/
def decode (cw : Reg) : Except DecodeError Instr :=
  match commandOf cw with
  | none => .error .unassignedOpcode
  | some i =>
    if cw &&& ~~~(allowedBits (opField cw) ||| 0xFF) ≠ 0 then .error .reservedBit
    else if i.wellFormed then .ok i
    else .error .lengthOutOfRange

/-- The opcode of a command (R113). -/
def opcode : Instr → BitVec 8
  | .nop => 0x00
  | .seedKey _ => 0x01
  | .seedInt _ => 0x02
  | .seedRange _ _ _ => 0x03
  | .seedSeq => 0x04
  | .restart => 0x05
  | .load => 0x06
  | .next => 0x08
  | .discard => 0x09
  | .prfApply => 0x0C
  | .clrst => 0x0F

/-- A command word from its fields: OP bits 7:0, B bit 8, S bit 9, U bit 10, L bits 19:16, every other bit 0 (R110,
R111). -/
def commandWord (len : BitVec 4) (u s b : Bool) (op : BitVec 8) : Reg :=
  op.setWidth 64 ||| (BitVec.ofBool b).setWidth 64 <<< 8 ||| (BitVec.ofBool s).setWidth 64 <<< 9 |||
    (BitVec.ofBool u).setWidth 64 <<< 10 ||| len.setWidth 64 <<< 16

/-- The command word of a command (R111, R113, R120). -/
def encode : Instr → Reg
  | .nop => commandWord 0 false false false 0x00
  | .seedKey b => commandWord 0 false false b 0x01
  | .seedInt b => commandWord 0 false false b 0x02
  | .seedRange strict wide len => commandWord len wide strict false 0x03
  | .seedSeq => commandWord 0 false false false 0x04
  | .restart => commandWord 0 false false false 0x05
  | .load => commandWord 0 false false false 0x06
  | .next => commandWord 0 false false false 0x08
  | .discard => commandWord 0 false false false 0x09
  | .prfApply => commandWord 0 false false false 0x0C
  | .clrst => commandWord 0 false false false 0x0F

/-- The 64-bit word whose low `nbits` bits are those of `w` and whose other bits are 0. -/
def tableWord (nbits w : Nat) : Reg := BitVec.ofNat 64 (w % 2 ^ nbits)

/-- The command the decoder reads from an opcode-table word (bit 0 least significant, as R18 and R111 number it). A
command is one 64-bit word (R110), so there is no second word to lay out. -/
def decodeTableWord (nbits w : Nat) : Option Instr :=
  match decode (tableWord nbits w) with
  | .ok i => some i
  | .error _ => none

end Sys2Proof
end

