-- ==== Sys2Proof/Config.lean ====
section
/-! DEFINITION. What one R123-CORE instance is built for (00_scope.md §3): the six parameters of R7 to R14, the
constants R10, R11 and R15 derive from them, and the admitted configurations as a type (R16). -/
namespace Sys2Proof

/-- `PRF` (R7). -/
inductive PrfKind where
  | philox
  | threefry
  deriving DecidableEq, Repr

/-- `N`, the number of words of the counter: 2 or 4 (R8). -/
inductive WordCount where
  | two
  | four
  deriving DecidableEq, Repr

/-- `V`, the width of every word of counter, block and key: 32 or 64 bits (R9). -/
inductive WordWidth where
  | w32
  | w64
  deriving DecidableEq, Repr

def WordCount.toNat : WordCount → Nat
  | .two => 2
  | .four => 4

def WordWidth.bits : WordWidth → Nat
  | .w32 => 32
  | .w64 => 64

/-- The six parameters of a configuration (R3). -/
structure Params where
  prf : PrfKind
  count : WordCount
  width : WordWidth
  rounds : Nat
  w : Nat
  ctrBits : Nat
  deriving DecidableEq, Repr

namespace Params

/-- N (R8). -/
def n (p : Params) : Nat := p.count.toNat

/-- V (R9). -/
abbrev v (p : Params) : Nat := p.width.bits

/-- M = N (R10). -/
def m (p : Params) : Nat := p.n

/-- K = N/2 for Philox, K = N for Threefry (R11, conflict C2). -/
def k (p : Params) : Nat :=
  match p.prf with
  | .philox => p.n / 2
  | .threefry => p.n

/-- Nbits = N·V (R15). -/
def nbits (p : Params) : Nat := p.n * p.v

/-- KBITS = K·V (R15). -/
def kbits (p : Params) : Nat := p.k * p.v

/-- CtrBitsBits = log2(Nbits) (R15). -/
def cbb (p : Params) : Nat := Nat.log2 p.nbits

/-- NRESULT = (M·V)/w (R15, R151). -/
def nresult (p : Params) : Nat := p.m * p.v / p.w

/-- The greatest round count admitted (R12). -/
def maxRounds (p : Params) : Nat :=
  match p.prf, p.count with
  | .philox, _ => 16
  | .threefry, .two => 32
  | .threefry, .four => 72

/-- The constraints of R12, R13 and R14; R7 to R9 are in the types. A configuration outside them is a
ConfigurationError, which no block that is built has (R16, R305). -/
def admitted (p : Params) : Bool :=
  decide (1 ≤ p.rounds ∧ p.rounds ≤ p.maxRounds) &&
    decide (p.w ∈ [1, 2, 4, 8, 16, 32, 64, 128, 256] ∧ p.w ≤ p.m * p.v) &&
      decide (1 ≤ p.ctrBits ∧ p.ctrBits ≤ p.nbits)

end Params

/-- A configuration: parameters that are admitted, with the proof, so that a ConfigurationError is unrepresentable
(R16, R305). -/
structure Cfg extends Params where
  ok : toParams.admitted = true
  deriving DecidableEq, Repr

/-- CFG-A of 95_test_vectors.md §0 and the example of R51: Philox 4×32, R = 10, w = 32, CtrBits = 32. DESIGN CHOICE
(log 1, unsafe): the configuration of State.reset; every other one is reached through State.resetOf. -/
def Cfg.a : Cfg := ⟨⟨.philox, .four, .w32, 10, 32, 32⟩, by decide⟩

end Sys2Proof
end

