-- ==== Sys2Proof/Machine/Traits.lean ====
section
/-! DEFINITION. The word-sequence datapath, the source's CounterTraits (40_traits.md), over sequences of any length and
width, and the passage between a sequence of V-bit words and the four 64-bit registers that hold it (R36). -/
namespace Sys2Proof.Machine

/-- `val(x)`: the integer of a sequence, word 0 least significant (R19, conflict C1). -/
def val {v : Nat} : Seq v → Nat
  | [] => 0
  | x :: xs => x.toNat + 2 ^ v * val xs

/-- `words_n(a)`: the n words of an integer; bits from n·V up are dropped (R19). -/
def wordsOf (v : Nat) : Nat → Nat → Seq v
  | 0, _ => []
  | n + 1, a => BitVec.ofNat v a :: wordsOf v n (a / 2 ^ v)

/-- `low_H(x)` (R20). -/
def lowPart {v : Nat} (h : Nat) (x : Seq v) : Nat := val x % 2 ^ h

/-- `high_H(x)` (R20). -/
def highPart {v : Nat} (h : Nat) (x : Seq v) : Nat := val x / 2 ^ h

/-- `is_equal(x, y)` (R141): element-wise equality. -/
def isEqual {v : Nat} (x y : Seq v) : Bool := decide (x = y)

/-- `make_zero()` (R142): the sequence of n zero words. -/
def makeZero (v n : Nat) : Seq v := List.replicate n 0

/-- `make_from_int(a)` over n words (R143); `none` is RangeError. -/
def makeFromInt (v n a : Nat) : Option (Seq v) :=
  if 2 ^ (n * v) ≤ a then none else some (wordsOf v n a)

/-- What packing input words gives (R144): the target, the number of input words consumed, and the bits of the consumed
input beyond the target. -/
structure Packed (v : Nat) where
  target : Seq v
  consumed : Nat
  leftover : Nat
  deriving DecidableEq, Repr

/-- `pack(in, L, U)` (R144): input words of `u` bits into n words of `v` bits, input word 0 lowest. -/
def pack (v n : Nat) {u : Nat} (input : Seq u) : Packed v :=
  let need := (n * v + u - 1) / u
  let consumed := min input.length need
  let t := val (input.take consumed)
  { target := wordsOf v n (t % 2 ^ (n * v)), consumed := consumed, leftover := t / 2 ^ (n * v) }

/-- `pack_report(in, L, U)` (R145): target and unconsumed position, silent about leftover bits. -/
def packReport (v n : Nat) {u : Nat} (input : Seq u) : Seq v × Nat :=
  ((pack v n input).target, (pack v n input).consumed)

/-- `pack_strict(in, L, U)` (R146); `none` is RangeError. -/
def packStrict (v n : Nat) {u : Nat} (input : Seq u) : Option (Seq v × Nat) :=
  if (pack v n input).leftover ≠ 0 then none
  else some ((pack v n input).target, (pack v n input).consumed)

/-- `make_from_seedseq(g)` (R147): the words a seed sequence generated, 32 bits each, packed. -/
def makeFromSeedseq (v n : Nat) (g : Seq 32) : Seq v := (packReport v n g).1

/-- `clr_highbits_H(x)` (R148): the top H bits cleared, and whether any of them was set. -/
def clrHighbits {v : Nat} (h : Nat) (x : Seq v) : Seq v × Bool :=
  (wordsOf v x.length (val x % 2 ^ (x.length * v - h)), decide (val x / 2 ^ (x.length * v - h) ≠ 0))

/-- `incr_H(x, k)` (R149): add k inside the low H bits; `none` is Overflow. -/
def incr {v : Nat} (h : Nat) (x : Seq v) (k : Nat) : Option (Seq v) :=
  if 2 ^ h - 1 < lowPart h x + k then none
  else some (wordsOf v x.length (highPart h x * 2 ^ h + (lowPart h x + k)))

/-- The carry loop of R150: the words of x with the carry added word by word, and the carry out. -/
def addCarry {v : Nat} : Seq v → Nat → Seq v × Nat
  | [], carry => ([], carry)
  | x :: xs, carry =>
    let rest := addCarry xs ((x.toNat + carry) / 2 ^ v)
    (BitVec.ofNat v (x.toNat + carry) :: rest.1, rest.2)

/-- The word-serial form of `incr_H` (R150): the carry loop, then the window test. -/
def incrSerial {v : Nat} (h : Nat) (x : Seq v) (k : Nat) : Option (Seq v) :=
  if highPart h (addCarry x k).1 ≠ highPart h x ∨ (addCarry x k).2 ≠ 0 then none
  else some (addCarry x k).1

/-- `size_w()` (R151): the number of w-bit results in a block of m words. -/
def sizeW (v m w : Nat) : Nat := m * v / w

/-- `at_w(n, blk)` (R153): bits n·w+w-1 to n·w of the block integer BIG(blk) = val(blk) (R152). -/
def atW {v : Nat} (w n : Nat) (blk : Seq v) : BitVec w := BitVec.ofNat w (val blk / 2 ^ (n * w))

/-- Result n by the three regimes of R154: a slice of one word, one word, or consecutive words, low word first. -/
def atWords {v : Nat} (w n : Nat) (blk : Seq v) : BitVec w :=
  if w < v then
    BitVec.ofNat w ((blk.getD (n / (v / w)) 0).toNat / 2 ^ (n % (v / w) * w))
  else if w = v then BitVec.ofNat w (blk.getD n 0).toNat
  else BitVec.ofNat w (val ((blk.drop (n * (w / v))).take (w / v)))

/-- The four registers of a group, register 0 first. -/
def quadRegs (q : Quad) : List Reg := [q.w0, q.w1, q.w2, q.w3]

/-- A group whose registers 0, 1, … hold the listed values and whose other registers are 0. -/
def quadOf (l : List Reg) : Quad := ⟨l.getD 0 0, l.getD 1 0, l.getD 2 0, l.getD 3 0⟩

/-- Register n of a group. -/
def quadGet (q : Quad) (n : Fin 4) : Reg :=
  match n with
  | 0 => q.w0
  | 1 => q.w1
  | 2 => q.w2
  | 3 => q.w3

/-- A group with register n replaced. -/
def quadSet (q : Quad) (n : Fin 4) (r : Reg) : Quad :=
  match n with
  | 0 => { q with w0 := r }
  | 1 => { q with w1 := r }
  | 2 => { q with w2 := r }
  | 3 => { q with w3 := r }

/-- The eight registers of a group, register 0 first. -/
def octRegs (o : Oct) : List Reg := [o.d0, o.d1, o.d2, o.d3, o.d4, o.d5, o.d6, o.d7]

/-- Register n of a group of eight. -/
def octGet (o : Oct) (n : Fin 8) : Reg :=
  match n with
  | 0 => o.d0
  | 1 => o.d1
  | 2 => o.d2
  | 3 => o.d3
  | 4 => o.d4
  | 5 => o.d5
  | 6 => o.d6
  | 7 => o.d7

/-- A group of eight with register n replaced. -/
def octSet (o : Oct) (n : Fin 8) (r : Reg) : Oct :=
  match n with
  | 0 => { o with d0 := r }
  | 1 => { o with d1 := r }
  | 2 => { o with d2 := r }
  | 3 => { o with d3 := r }
  | 4 => { o with d4 := r }
  | 5 => { o with d5 := r }
  | 6 => { o with d6 := r }
  | 7 => { o with d7 := r }

/-- The sequence a group holds: bits V-1:0 of its first n registers (R36, R119). -/
def seqOf (v n : Nat) (q : Quad) : Seq v := ((quadRegs q).take n).map (BitVec.setWidth v)

/-- The group that holds a sequence: word n in register n, zero-extended, and 0 past the end (R36). -/
def hold {v : Nat} (x : Seq v) : Quad := quadOf (x.map (BitVec.setWidth 64))

end Sys2Proof.Machine
end

