-- ==== Sys2Proof/Machine/Marker.lean ====
section
/-! DEFINITION. The CtrBits marker in the key and the two checks of caller-supplied values (42_engine_seed.md §1), and
the reset key (R56). -/
namespace Sys2Proof.Machine

/-- The marker bits of word K-1: (CtrBits-1) << (V-CBB) (R230). -/
def markerBits (c : Cfg) : BitVec c.width.bits := BitVec.ofNat c.width.bits (c.ctrBits - 1) <<< (c.v - c.cbb)

/-- `rf(k)`: the top CBB bits of word K-1 (R230). -/
def markerField (c : Cfg) (key : Seq c.width.bits) : Nat := ((key.getD (c.k - 1) 0) >>> (c.v - c.cbb)).toNat

/-- `enc_key(k)`: the field cleared, then the marker put into it (R231). -/
def encKey (c : Cfg) (key : Seq c.width.bits) : Seq c.width.bits :=
  (clrHighbits c.cbb key).1.modify (c.k - 1) (· ||| markerBits c)

/-- `check_key(k)` (R232): does it fail, that is, has the caller's key a nonzero bit in the marker field? -/
def keyRejected (c : Cfg) (key : Seq c.width.bits) : Bool := (clrHighbits c.cbb key).2

/-- `check_base(b)` (R233): does it fail, that is, has the base a nonzero bit in its low CtrBits bits? -/
def baseRejected (c : Cfg) (base : Seq c.width.bits) : Bool := decide (lowPart c.ctrBits base ≠ 0)

/-- The reset value of ST.KEY: 0 in every word but K-1, which holds the marker (R56). -/
def resetKey (c : Cfg) : Quad := hold ((makeZero c.width.bits c.k).set (c.k - 1) (markerBits c))

end Sys2Proof.Machine
end

