-- ==== Sys2Proof/Machine/State.lean ====
section
/-! DEFINITION. The state of one R123-CORE instance (10_state.md), the outcomes that are no next state, and reset. -/
namespace Sys2Proof.Machine

/-- The engine state (R30 to R33). A sequence of V-bit words stands in four 64-bit places, word n in place n,
zero-extended, the places past its end 0. -/
structure Engine where
  /-- ST.KEY, the effective key, marker included (R30). -/
  key : Quad
  /-- ST.CTR (R31). -/
  ctr : Quad
  /-- ST.BLK, the hidden cached block (R32). -/
  blk : Quad
  /-- ST.CURSOR, stored in 9 bits (R33). -/
  cursor : BitVec 9
  deriving DecidableEq, Repr

/-- The staging registers; SNAP is a copy of them (R39, R41, R42, R43, R52). -/
structure Staging where
  arg : Reg
  keyin : Quad
  ctrin : Quad
  din : Oct
  deriving DecidableEq, Repr

/-- The result registers (R40, R44, R45). -/
structure Results where
  result : Quad
  bout : Quad
  /-- CONSUMED, bits 3:0; the register's other bits read 0 (R40). -/
  consumed : BitVec 4
  deriving DecidableEq, Repr

/-- The stored fields of STATUS (R38). BUSY is not stored: it is 1 exactly when PEND is not empty (R52). DEDUCED, log 8,
safe. -/
structure Status where
  dropped : Bool
  code : BitVec 8
  detail : BitVec 8
  lastop : BitVec 8
  deriving DecidableEq, Repr

/-- A command in flight: the accepted word and the snapshot taken at acceptance (R52). -/
structure Pending where
  cmd : Reg
  snap : Staging
  deriving DecidableEq, Repr

/-- One step the outside world or the block's own latency may ask for (R343), or an access on a byte bus (R84). -/
inductive Event where
  /-- HostRead(i) (R81, R343). -/
  | hostRead (i : Index)
  /-- HostWrite(i, x) (R81, R343). -/
  | hostWrite (i : Index) (x : Reg)
  /-- A read of `size` bytes at byte offset `offset` from the block's base address (R84). -/
  | busRead (offset size : Nat)
  /-- A write of the bytes `data`, lowest lane first, at byte offset `offset` from the block's base address (R84). -/
  | busWrite (offset : Nat) (data : List (BitVec 8))
  /-- Complete (R343): the command in flight runs and ends now. -/
  | complete
  /-- Reset (R340). -/
  | reset
  deriving DecidableEq, Repr

/-- The state of the block and, last, two fields of the model's own. -/
structure State where
  /-- The configuration, constant (R3, 10_state.md class 1). -/
  cfg : Cfg
  /-- The engine state (R30 to R33). -/
  eng : Engine
  /-- The staging registers (R39, R41 to R43). -/
  stg : Staging
  /-- The result registers (R40, R44, R45). -/
  res : Results
  /-- CMD, the last accepted command word (R37). -/
  cmd : Reg
  /-- The stored fields of STATUS (R38). -/
  status : Status
  /-- PEND: `none` is empty (R52). -/
  pend : Option Pending
  /-- MODEL's own: the coming steps, in order. It settles what R343 and R350 leave open (which step is next, and
  LATENCY). DESIGN CHOICE, log 2, safe. -/
  inputs : List Event
  /-- MODEL's own: every register the host has read, with the value it got, newest first; R343's HostRead "returns" it.
  DESIGN CHOICE, log 6, safe. -/
  reads : List (Index × Reg)
  deriving DecidableEq, Repr

/-- No step of this machine faults: an error of a command is a status code, there are no traps (R310), and nothing
leaves the block stuck (U14). DEDUCED, log 12, safe. -/
inductive Fault where
  deriving DecidableEq, Repr

/-- Why the model gives no next state. None of these is an instruction's: they are inputs the spec gives no step for. -/
inductive Refusal where
  /-- An arm of exec whose instruction has no meaning yet; no arm answers it. Safe. -/
  | notModelled (mnemonic : String)
  /-- Complete is asked for while PEND is empty; R343 enables it only when STATUS.BUSY = 1. Raised by the step and by
  every meaning, on such a state only. DEDUCED, log 4, safe. -/
  | noCommandInFlight
  /-- A byte-bus access that is not one naturally aligned 8-byte access to one of the 64 registers; R84: "the model
  refuses such an access". Raised by the step. Safe. -/
  | busAccess
  deriving DecidableEq, Repr

/-- What a step answers. -/
abbrev Result := Host.Outcome State Fault Refusal

/-- The engine after reset (R56). -/
def Engine.reset (c : Cfg) : Engine where
  key := resetKey c
  ctr := Quad.zero
  blk := Quad.zero
  cursor := BitVec.ofNat 9 c.nresult

/-- The block of configuration `c` right after reset (R56, R340). -/
def State.resetOf (c : Cfg) : State where
  cfg := c
  eng := Engine.reset c
  stg := { arg := 0, keyin := Quad.zero, ctrin := Quad.zero, din := Oct.zero }
  res := { result := Quad.zero, bout := Quad.zero, consumed := 0 }
  cmd := 0
  status := { dropped := false, code := 0x00, detail := 0x00, lastop := 0x00 }
  pend := none
  inputs := []
  reads := []

/-- The machine right after reset, in the configuration CFG-A. DESIGN CHOICE, log 1, unsafe. -/
def State.reset : State := State.resetOf Cfg.a

end Sys2Proof.Machine
end

