-- ==== Sys2Proof/Machine/Flags.lean ====
section
/-! DEFINITION. The status codes and details a command can end with (R301, R302), and the STATUS word (R38). STATUS is
the only flag register (R55). -/
namespace Sys2Proof.Machine

/-- The errors a command can end with, one constructor for each row of R302 with a nonzero code. CONFIGURATION_ERROR
(0x06) is none of them: no command ever writes it (R305). -/
inductive CmdError where
  /-- COUNTER_SPACE_EXHAUSTED(0x00): NEXT, DISCARD. -/
  | counterSpaceExhausted
  /-- KEY_RANGE_ERROR(0x01): the caller's key has a nonzero bit in the marker field. -/
  | keyRange
  /-- KEY_RANGE_ERROR(0x02): the base has a nonzero bit in its low CtrBits bits. -/
  | baseRange
  /-- RANGE_ERROR(0x01): SEED.INT with ARG ≥ 2^KBITS. -/
  | intRange
  /-- RANGE_ERROR(0x02): SEED.RANGE strict with consumed input beyond KBITS. -/
  | leftoverRange
  /-- MALFORMED_INPUT(0x01): LOAD with ARG > Nresult. -/
  | malformedCursor
  /-- MALFORMED_INPUT(0x02): LOAD with rf(key) ≠ CtrBits - 1. -/
  | malformedMarker
  /-- ILLEGAL_COMMAND(0x01 to 0x03): the command word does not decode. -/
  | illegal (e : DecodeError)
  deriving DecidableEq, Repr

/-- STATUS.CODE of an error (R301). -/
def errorCode : CmdError → BitVec 8
  | .counterSpaceExhausted => 0x01
  | .keyRange => 0x02
  | .baseRange => 0x02
  | .intRange => 0x03
  | .leftoverRange => 0x03
  | .malformedCursor => 0x04
  | .malformedMarker => 0x04
  | .illegal _ => 0x05

/-- STATUS.DETAIL of an error (R302). -/
def errorDetail : CmdError → BitVec 8
  | .counterSpaceExhausted => 0x00
  | .keyRange => 0x01
  | .baseRange => 0x02
  | .intRange => 0x01
  | .leftoverRange => 0x02
  | .malformedCursor => 0x01
  | .malformedMarker => 0x02
  | .illegal .unassignedOpcode => 0x01
  | .illegal .reservedBit => 0x02
  | .illegal .lengthOutOfRange => 0x03

/-- The (CODE, DETAIL) pairs of the table of R302. -/
def statusPairs : List (BitVec 8 × BitVec 8) :=
  [(0x00, 0x00), (0x01, 0x00), (0x02, 0x01), (0x02, 0x02), (0x03, 0x01), (0x03, 0x02), (0x04, 0x01), (0x04, 0x02),
    (0x05, 0x01), (0x05, 0x02), (0x05, 0x03)]

/-- STATUS.BUSY: 1 from acceptance to completion, while PEND holds a command (R38, R52). -/
def busy (s : State) : Bool := s.pend.isSome

/-- The STATUS register: BUSY bit 0, DROPPED bit 1, CODE bits 15:8, DETAIL bits 23:16, LASTOP bits 31:24, every other
bit 0 (R38). -/
def statusWord (s : State) : Reg :=
  BitVec.ofNat 64
    ((busy s).toNat + s.status.dropped.toNat * 2 + s.status.code.toNat * 2 ^ 8 + s.status.detail.toNat * 2 ^ 16 +
      s.status.lastop.toNat * 2 ^ 24)

end Sys2Proof.Machine
end

