-- ==== Sys2Proof/Machine/Operands.lean ====
section
/-! DEFINITION. Operand assembly (R119): every operand of a command but B, S, U and L comes from the snapshot. -/
namespace Sys2Proof.Machine

/-- The key operand (SNAP.KEYIN0[V-1:0], ..., SNAP.KEYIN(K-1)[V-1:0]) (R41, R119). -/
def keyOperand (c : Cfg) (snap : Staging) : Seq c.width.bits := seqOf c.width.bits c.k snap.keyin

/-- The counter operand (SNAP.CTRIN0[V-1:0], ..., SNAP.CTRIN(N-1)[V-1:0]) (R42, R119). -/
def ctrOperand (c : Cfg) (snap : Staging) : Seq c.width.bits := seqOf c.width.bits c.n snap.ctrin

/-- The base that B selects: all-zero when 0, the counter operand when 1 (R111, R119). -/
def baseOperand (c : Cfg) (b : Bool) (snap : Staging) : Seq c.width.bits :=
  if b then ctrOperand c snap else makeZero c.width.bits c.n

/-- The first `len` input words, their low u bits (R43, R119). -/
def inputOperand (u len : Nat) (snap : Staging) : Seq u := ((octRegs snap.din).take len).map (BitVec.setWidth u)

/-- ST.KEY as the sequence of its K words (R30). -/
def keySeq (c : Cfg) (e : Engine) : Seq c.width.bits := seqOf c.width.bits c.k e.key

/-- ST.CTR as the sequence of its N words (R31). -/
def ctrSeq (c : Cfg) (e : Engine) : Seq c.width.bits := seqOf c.width.bits c.n e.ctr

/-- ST.BLK as the sequence of its M words (R32). -/
def blkSeq (c : Cfg) (e : Engine) : Seq c.width.bits := seqOf c.width.bits c.m e.blk

end Sys2Proof.Machine
end

