-- ==== Sys2Proof/Machine/RegMap.lean ====
section
/-! DEFINITION. The register map of the port (R35): which register each of the 64 indices names. -/
namespace Sys2Proof.Machine

/-- The registers of the port (R35). -/
inductive RegName where
  | cmd
  | status
  | arg
  | consumed
  | keyin (n : Fin 4)
  | ctrin (n : Fin 4)
  | din (n : Fin 8)
  | result (n : Fin 4)
  | bout (n : Fin 4)
  | cursor
  | ctr (n : Fin 4)
  | key (n : Fin 4)
  | reserved
  | id
  | config
  deriving DecidableEq, Repr

/-- The register an index names (R35). -/
def regName (i : Index) : RegName :=
  let n := i.toNat
  if n = 0x00 then .cmd
  else if n = 0x01 then .status
  else if n = 0x02 then .arg
  else if n = 0x03 then .consumed
  else if n < 0x08 then .keyin (Fin.ofNat 4 (n - 0x04))
  else if n < 0x0C then .ctrin (Fin.ofNat 4 (n - 0x08))
  else if n < 0x14 then .din (Fin.ofNat 8 (n - 0x0C))
  else if n < 0x18 then .result (Fin.ofNat 4 (n - 0x14))
  else if n < 0x1C then .bout (Fin.ofNat 4 (n - 0x18))
  else if n = 0x1C then .cursor
  else if n < 0x21 then .ctr (Fin.ofNat 4 (n - 0x1D))
  else if n < 0x25 then .key (Fin.ofNat 4 (n - 0x21))
  else if n < 0x3E then .reserved
  else if n = 0x3E then .id
  else .config

/-- The index of a register; of the reserved ones, the first (R35). -/
def regIndex : RegName → Index
  | .cmd => 0x00
  | .status => 0x01
  | .arg => 0x02
  | .consumed => 0x03
  | .keyin n => BitVec.ofNat 6 (0x04 + n.val)
  | .ctrin n => BitVec.ofNat 6 (0x08 + n.val)
  | .din n => BitVec.ofNat 6 (0x0C + n.val)
  | .result n => BitVec.ofNat 6 (0x14 + n.val)
  | .bout n => BitVec.ofNat 6 (0x18 + n.val)
  | .cursor => 0x1C
  | .ctr n => BitVec.ofNat 6 (0x1D + n.val)
  | .key n => BitVec.ofNat 6 (0x21 + n.val)
  | .reserved => 0x25
  | .id => 0x3E
  | .config => 0x3F

end Sys2Proof.Machine
end

