-- ==== Sys2Proof/Machine/Ops.lean ====
section
/-! DEFINITION. The named operations: how a command is accepted and how it ends, in success or with an error code (the
block's only exception: R300, R310), the registers of the port, and the reset step. -/
namespace Sys2Proof.Machine

/-- The completion of the command in flight with a status (R303, R304): CODE, DETAIL and LASTOP are written, BUSY falls
and PEND is emptied. -/
def finish (p : Pending) (code detail : BitVec 8) (s : State) : State :=
  { s with
    status := { s.status with code := code, detail := detail, lastop := opField p.cmd }
    pend := none }

/-- `commit` on a state that already has the command's staged writes (R304). -/
def commit (p : Pending) (s : State) : State := finish p 0x00 0x00 s

/-- `fail CODE(DETAIL)` (R303). It is what the block has in the place of taking an exception (R310). -/
def failWith (p : Pending) (e : CmdError) (s : State) : State := finish p (errorCode e) (errorDetail e) s

/-- The Complete step of a command whose pseudocode is `body`: from the snapshot it gives the state with all its staged
writes, or an error. All writes are applied, or STATUS alone is written (R22, R300, R303, R304). -/
def runCommand (s : State) (body : Staging → Except CmdError State) : Result :=
  match s.pend with
  | none => .refused .noCommandInFlight
  | some p =>
    match body p.snap with
    | .ok t => .next (commit p t)
    | .error e => .next (failWith p e s)

/-- The effect CLRST has in its acceptance step: STATUS.DROPPED falls when the word is a legal CLRST (R274, R343). -/
def droppedAfterAccept (cw : Reg) (dropped : Bool) : Bool :=
  match decode cw with
  | .ok .clrst => false
  | _ => dropped

/-- Acceptance of a command word: CMD is stored, PEND gets the word and the snapshot, BUSY rises (R37, R52, R343). -/
def accept (cw : Reg) (s : State) : State :=
  { s with
    cmd := cw
    pend := some { cmd := cw, snap := s.stg }
    status := { s.status with dropped := droppedAfterAccept cw s.status.dropped } }

/-- A host write to CMD: accepted while idle, dropped while busy (R37, R343, R344). -/
def writeCmd (cw : Reg) (s : State) : State :=
  if busy s then { s with status := { s.status with dropped := true } } else accept cw s

/-- What a word register stores of a written value: its bits V-1:0 (R36). -/
def wordOf (c : Cfg) (x : Reg) : Reg := (x.setWidth c.width.bits).setWidth 64

/-- ID (R50). -/
def idWord : Reg := 0x5231323300070001

/-- CONFIG: PRF bit 0, N bits 7:4, K bits 11:8, M bits 15:12, V bits 23:16, R bits 31:24, W bits 40:32, CTRBITS bits
49:41, NRESULT bits 58:50, CBB bits 62:59, every other bit 0 (R51). -/
def configWord (c : Cfg) : Reg :=
  BitVec.ofNat 64
    ((decide (c.prf = .threefry)).toNat + c.n * 2 ^ 4 + c.k * 2 ^ 8 + c.m * 2 ^ 12 + c.v * 2 ^ 16 + c.rounds * 2 ^ 24 +
      c.w * 2 ^ 32 + c.ctrBits * 2 ^ 41 + c.nresult * 2 ^ 50 + c.cbb * 2 ^ 59)

/-- A view of a sequence of the engine: word n, and 0 past its end (R47, R48). -/
def viewWord {v : Nat} (x : Seq v) (n : Fin 4) : Reg := quadGet (hold x) n

/-- The value of a register (R35 to R51). -/
def readName (s : State) : RegName → Reg
  | .cmd => s.cmd
  | .status => statusWord s
  | .arg => s.stg.arg
  | .consumed => s.res.consumed.setWidth 64
  | .keyin n => wordOf s.cfg (quadGet s.stg.keyin n)
  | .ctrin n => wordOf s.cfg (quadGet s.stg.ctrin n)
  | .din n => octGet s.stg.din n
  | .result n => quadGet s.res.result n
  | .bout n => wordOf s.cfg (quadGet s.res.bout n)
  | .cursor => s.eng.cursor.setWidth 64
  | .ctr n => viewWord (ctrSeq s.cfg s.eng) n
  | .key n => viewWord (keySeq s.cfg s.eng) n
  | .reserved => 0
  | .id => idWord
  | .config => configWord s.cfg

/-- `RegRead(i)` (R81). -/
def regRead (s : State) (i : Index) : Reg := readName s (regName i)

/-- The effect of a write to a register: CMD issues a command, the staging registers store, every other write is
ignored (R35, R36, R87). -/
def writeName (x : Reg) (s : State) : RegName → State
  | .cmd => writeCmd x s
  | .status => s
  | .arg => { s with stg := { s.stg with arg := x } }
  | .consumed => s
  | .keyin n => { s with stg := { s.stg with keyin := quadSet s.stg.keyin n (wordOf s.cfg x) } }
  | .ctrin n => { s with stg := { s.stg with ctrin := quadSet s.stg.ctrin n (wordOf s.cfg x) } }
  | .din n => { s with stg := { s.stg with din := octSet s.stg.din n x } }
  | .result _ => s
  | .bout _ => s
  | .cursor => s
  | .ctr _ => s
  | .key _ => s
  | .reserved => s
  | .id => s
  | .config => s

/-- `RegWrite(i, x)` (R81). -/
def regWrite (i : Index) (x : Reg) (s : State) : State := writeName x s (regName i)

/-- The HostRead step (R343): no state change; the value returned is recorded in the model's own `reads` (log 6). -/
def hostRead (i : Index) (s : State) : State := { s with reads := (i, regRead s i) :: s.reads }

/-- The Reset step (R340): PEND emptied with no commit, every piece of state at its reset value. The configuration is
built in; the model's own `inputs` and `reads` are the world's and stay (log 6). -/
def resetStep (s : State) : State := { State.resetOf s.cfg with inputs := s.inputs, reads := s.reads }

/-- The register a byte-bus access of `size` bytes at a byte offset reaches: only naturally aligned 8-byte accesses
reach the block, register i at 8·i (R84). -/
def busIndex (offset size : Nat) : Option Index :=
  if size = 8 ∧ offset % 8 = 0 ∧ offset < 8 * 64 then some (BitVec.ofNat 6 (offset / 8)) else none

/-- The register value of eight bytes in little-endian lanes: byte j is bits 8j+7:8j (R84). -/
def busValue (data : List (BitVec 8)) : Reg := BitVec.ofNat 64 (val data)

/-- The eight bytes of a register value in little-endian lanes (R84). -/
def busBytes (x : Reg) : List (BitVec 8) := wordsOf 8 8 x.toNat

/-- A read on the byte bus (R84). -/
def busRead (offset size : Nat) (s : State) : Result :=
  match busIndex offset size with
  | some i => .next (hostRead i s)
  | none => .refused .busAccess

/-- A write on the byte bus (R84). -/
def busWrite (offset : Nat) (data : List (BitVec 8)) (s : State) : Result :=
  match busIndex offset data.length with
  | some i => .next (regWrite i (busValue data) s)
  | none => .refused .busAccess

end Sys2Proof.Machine
end

