-- ==== Sys2Proof/Machine/Prf.lean ====
section
/-! DEFINITION. The PRF datapaths (41_prf.md): Philox and Threefry for two and for four words of 32 or 64 bits. The
constants, the rotation tables and the wiring are the spec's, which has them from general knowledge (G1 to G4).
UNVERIFIED, log 11, unsafe. -/
namespace Sys2Proof.Machine

/-- A PRF state of two words. -/
structure Two (v : Nat) where
  x0 : BitVec v
  x1 : BitVec v
  deriving DecidableEq, Repr

/-- A PRF state of four words. -/
structure Four (v : Nat) where
  x0 : BitVec v
  x1 : BitVec v
  x2 : BitVec v
  x3 : BitVec v
  deriving DecidableEq, Repr

def twoOf {v : Nat} (x : Seq v) : Two v := ⟨x.getD 0 0, x.getD 1 0⟩
def twoSeq {v : Nat} (x : Two v) : Seq v := [x.x0, x.x1]
def fourOf {v : Nat} (x : Seq v) : Four v := ⟨x.getD 0 0, x.getD 1 0, x.getD 2 0, x.getD 3 0⟩
def fourSeq {v : Nat} (x : Four v) : Seq v := [x.x0, x.x1, x.x2, x.x3]

/-- Rounds 0, 1, …, r-1 applied in that order. -/
def iterate {α : Type} (round : Nat → α → α) : Nat → α → α
  | 0, x => x
  | r + 1, x => round r (iterate round r x)

/-- PHILOX_M2 (R193). -/
def philoxM2 : (v : WordWidth) → BitVec v.bits
  | .w32 => 0xD256D193#32
  | .w64 => 0xD2B74407B1CE6E93#64

/-- PHILOX_M4_0 (R193). -/
def philoxM40 : (v : WordWidth) → BitVec v.bits
  | .w32 => 0xD2511F53#32
  | .w64 => 0xD2E7470EE14C6C93#64

/-- PHILOX_M4_1 (R193). -/
def philoxM41 : (v : WordWidth) → BitVec v.bits
  | .w32 => 0xCD9E8D57#32
  | .w64 => 0xCA5A826395121157#64

/-- PHILOX_W_0, the Weyl constant of lane 0 (R193). -/
def philoxW0 : (v : WordWidth) → BitVec v.bits
  | .w32 => 0x9E3779B9#32
  | .w64 => 0x9E3779B97F4A7C15#64

/-- PHILOX_W_1, the Weyl constant of lane 1 (R193). -/
def philoxW1 : (v : WordWidth) → BitVec v.bits
  | .w32 => 0xBB67AE85#32
  | .w64 => 0xBB67AE8584CAA73B#64

/-- The high half of `mulhilo(a, b)` (R194). -/
def mulHi {v : Nat} (a b : BitVec v) : BitVec v := BitVec.ofNat v (a.toNat * b.toNat / 2 ^ v)

/-- The low half of `mulhilo(a, b)` (R194). -/
def mulLo {v : Nat} (a b : BitVec v) : BitVec v := BitVec.ofNat v (a.toNat * b.toNat)

/-- The Philox 2×V round (R194) with multiplier m and round key k. -/
def philoxRound2 {v : Nat} (m k : BitVec v) (x : Two v) : Two v :=
  ⟨mulHi m x.x0 ^^^ k ^^^ x.x1, mulLo m x.x0⟩

/-- The Philox 4×V round (R195) with multipliers m0, m1 and round key k. -/
def philoxRound4 {v : Nat} (m0 m1 : BitVec v) (k : Two v) (x : Four v) : Four v :=
  ⟨mulHi m1 x.x2 ^^^ x.x1 ^^^ k.x0, mulLo m1 x.x2, mulHi m0 x.x0 ^^^ x.x3 ^^^ k.x1, mulLo m0 x.x0⟩

/-- One lane of the Philox key schedule: the round key of round r (R196). -/
def philoxLane {v : Nat} (weyl key : BitVec v) : Nat → BitVec v
  | 0 => key
  | r + 1 => philoxLane weyl key r + weyl

/-- Philox apply for N = 2 (R197). -/
def philox2 (width : WordWidth) (rounds : Nat) (key : BitVec width.bits) (ctr : Two width.bits) : Two width.bits :=
  iterate (fun r => philoxRound2 (philoxM2 width) (philoxLane (philoxW0 width) key r)) rounds ctr

/-- Philox apply for N = 4 (R197). -/
def philox4 (width : WordWidth) (rounds : Nat) (key : Two width.bits) (ctr : Four width.bits) : Four width.bits :=
  iterate
    (fun r => philoxRound4 (philoxM40 width) (philoxM41 width)
      ⟨philoxLane (philoxW0 width) key.x0 r, philoxLane (philoxW1 width) key.x1 r⟩) rounds ctr

/-- C240, the Threefry parity constant (R199). -/
def threefryC240 : (v : WordWidth) → BitVec v.bits
  | .w32 => 0x1BD11BDA#32
  | .w64 => 0x1BD11BDAA9FC1A22#64

/-- The extended key schedule: the key words, then the parity word (R199). -/
def threefrySchedule (width : WordWidth) (key : Seq width.bits) : Seq width.bits :=
  key ++ [key.foldl (· ^^^ ·) (threefryC240 width)]

/-- `RotL(x, s)` (R200). -/
def rotL {v : Nat} (x : BitVec v) (s : Nat) : BitVec v :=
  if s = 0 then x else (x <<< s) ||| (x >>> (v - s))

/-- R2[j] (R201). -/
def rotTable2 : WordWidth → Nat → Nat
  | .w32, j => [13, 15, 26, 6, 17, 29, 16, 24].getD j 0
  | .w64, j => [16, 42, 12, 31, 16, 32, 24, 21].getD j 0

/-- R4[j][0] (R201). -/
def rotTable40 : WordWidth → Nat → Nat
  | .w32, j => [10, 11, 13, 23, 6, 17, 25, 18].getD j 0
  | .w64, j => [14, 52, 23, 5, 25, 46, 58, 32].getD j 0

/-- R4[j][1] (R201). -/
def rotTable41 : WordWidth → Nat → Nat
  | .w32, j => [26, 21, 27, 5, 20, 11, 10, 20].getD j 0
  | .w64, j => [16, 57, 40, 37, 33, 12, 22, 32].getD j 0

/-- Add, rotate, XOR on one pair of words with one rotation amount (R198, R202, R203). -/
def mix {v : Nat} (s : Nat) (p : Two v) : Two v :=
  ⟨p.x0 + p.x1, rotL p.x1 s ^^^ (p.x0 + p.x1)⟩

/-- The Threefry 2×V round r (R202). -/
def threefryRound2 (width : WordWidth) (r : Nat) (x : Two width.bits) : Two width.bits :=
  mix (rotTable2 width (r % 8)) x

/-- The Threefry 4×V round r: pairs (0,1) and (2,3) when r is even, (0,3) and (2,1) when it is odd (R203). -/
def threefryRound4 (width : WordWidth) (r : Nat) (x : Four width.bits) : Four width.bits :=
  let s0 := rotTable40 width (r % 8)
  let s1 := rotTable41 width (r % 8)
  if r % 2 = 0 then
    let a := mix s0 ⟨x.x0, x.x1⟩
    let b := mix s1 ⟨x.x2, x.x3⟩
    ⟨a.x0, a.x1, b.x0, b.x1⟩
  else
    let a := mix s0 ⟨x.x0, x.x3⟩
    let b := mix s1 ⟨x.x2, x.x1⟩
    ⟨a.x0, b.x1, b.x0, a.x1⟩

/-- Injection s for N = 2 (R204): the schedule rotated by s is added, and s to the last word. -/
def inject2 {v : Nat} (ks : Seq v) (s : Nat) (x : Two v) : Two v :=
  ⟨x.x0 + ks.getD (s % 3) 0, x.x1 + ks.getD ((s + 1) % 3) 0 + BitVec.ofNat v s⟩

/-- Injection s for N = 4 (R204). -/
def inject4 {v : Nat} (ks : Seq v) (s : Nat) (x : Four v) : Four v :=
  ⟨x.x0 + ks.getD (s % 5) 0, x.x1 + ks.getD ((s + 1) % 5) 0, x.x2 + ks.getD ((s + 2) % 5) 0,
    x.x3 + ks.getD ((s + 3) % 5) 0 + BitVec.ofNat v s⟩

/-- Round r of Threefry with the injection that follows it when r mod 4 = 3 (R204, R205), N = 2. -/
def threefryStep2 (width : WordWidth) (ks : Seq width.bits) (r : Nat) (x : Two width.bits) : Two width.bits :=
  if r % 4 = 3 then inject2 ks ((r + 1) / 4) (threefryRound2 width r x) else threefryRound2 width r x

/-- Round r of Threefry with the injection that follows it when r mod 4 = 3 (R204, R205), N = 4. -/
def threefryStep4 (width : WordWidth) (ks : Seq width.bits) (r : Nat) (x : Four width.bits) : Four width.bits :=
  if r % 4 = 3 then inject4 ks ((r + 1) / 4) (threefryRound4 width r x) else threefryRound4 width r x

/-- Threefry apply for N = 2 (R205). -/
def threefry2 (width : WordWidth) (rounds : Nat) (key : Two width.bits) (ctr : Two width.bits) : Two width.bits :=
  let ks := threefrySchedule width (twoSeq key)
  iterate (threefryStep2 width ks) rounds (inject2 ks 0 ctr)

/-- Threefry apply for N = 4 (R205). -/
def threefry4 (width : WordWidth) (rounds : Nat) (key : Four width.bits) (ctr : Four width.bits) : Four width.bits :=
  let ks := threefrySchedule width (fourSeq key)
  iterate (threefryStep4 width ks) rounds (inject4 ks 0 ctr)

/-- `PRF(key, ctr)` of a configuration on word sequences (R190): K key words and N counter words give M = N words. -/
def prf (c : Cfg) (key ctr : Seq c.width.bits) : Seq c.width.bits :=
  match c.prf, c.count with
  | .philox, .two => twoSeq (philox2 c.width c.rounds (key.getD 0 0) (twoOf ctr))
  | .philox, .four => fourSeq (philox4 c.width c.rounds (twoOf key) (fourOf ctr))
  | .threefry, .two => twoSeq (threefry2 c.width c.rounds (twoOf key) (twoOf ctr))
  | .threefry, .four => fourSeq (threefry4 c.width c.rounds (fourOf key) (fourOf ctr))

end Sys2Proof.Machine
end

