-- ==== Sys2Proof/Machine/Draw.lean ====
section
/-! DEFINITION. Drawing and discarding: NEXT and DISCARD (43_engine_draw.md). -/
namespace Sys2Proof.Machine

/-- The first part of NEXT (R270): in the exhausted phase the counter moves one block on, the block is recomputed and
the cursor returns to 0; in the fresh phase nothing changes. `none` is Overflow. -/
def refill (c : Cfg) (e : Engine) : Option Engine :=
  if e.cursor.toNat = c.nresult then
    match incr c.ctrBits (ctrSeq c e) 1 with
    | none => none
    | some ctr => some { e with ctr := hold ctr, blk := hold (prf c (keySeq c e) ctr), cursor := 0 }
  else some e

/-- The result a refilled engine gives: result ST.CURSOR of its block (R153, R270). -/
def drawn (c : Cfg) (e : Engine) : BitVec c.w := atW c.w e.cursor.toNat (blkSeq c e)

/-- The engine after its result is drawn: the cursor one further (R270). -/
def advance (e : Engine) : Engine := { e with cursor := BitVec.ofNat 9 (e.cursor.toNat + 1) }

/-- RESULT0-3 of a result: RESULTj = r[64j+63 : 64j], zero-extended (R44). -/
def resultRegs {w : Nat} (r : BitVec w) : Quad := hold (wordsOf 64 4 r.toNat)

/-- NEXT (R270). -/
def execNext (s : State) : Result :=
  runCommand s fun _ =>
    match refill s.cfg s.eng with
    | none => .error .counterSpaceExhausted
    | some e => .ok { s with eng := advance e, res := { s.res with result := resultRegs (drawn s.cfg e) } }

/-- The discard arithmetic (R271, R272), exact: from the cursor and n, the new cursor and the number k of increments,
with the boundary correction. -/
def discardSplit (nresult cursor n : Nat) : Nat × Nat :=
  let t := cursor + n
  if t % nresult = 0 ∧ 0 < t / nresult then (nresult, t / nresult - 1) else (t % nresult, t / nresult)

/-- What DISCARD n does to the engine (R271); `none` is Overflow. -/
def discardEngine (c : Cfg) (n : Nat) (e : Engine) : Option Engine :=
  let nn := (discardSplit c.nresult e.cursor.toNat n).1
  let k := (discardSplit c.nresult e.cursor.toNat n).2
  match incr c.ctrBits (ctrSeq c e) k with
  | none => none
  | some ctr =>
    some { e with
      ctr := hold ctr
      cursor := BitVec.ofNat 9 nn
      blk := if 0 < k ∧ nn < c.nresult then hold (prf c (keySeq c e) ctr) else e.blk }

/-- DISCARD (R271). -/
def execDiscard (s : State) : Result :=
  runCommand s fun snap =>
    match discardEngine s.cfg snap.arg.toNat s.eng with
    | none => .error .counterSpaceExhausted
    | some e => .ok { s with eng := e }

/-- `min()` (R276). -/
def minResult : Nat := 0

/-- `max()` = 2^w - 1 (R276). -/
def maxResult (c : Cfg) : Nat := 2 ^ c.w - 1

end Sys2Proof.Machine
end

