-- ==== Sys2Proof/Machine/Housekeeping.lean ====
section
/-! DEFINITION. The two housekeeping commands, NOP (R273) and CLRST (R274). -/
namespace Sys2Proof.Machine

/-- NOP (R273): `commit` and nothing else. -/
def execNop (s : State) : Result := runCommand s fun _ => .ok s

/-- CLRST (R274): its completion is `commit` and does not touch DROPPED, which its acceptance cleared
(droppedAfterAccept). -/
def execClrst (s : State) : Result := runCommand s fun _ => .ok s

end Sys2Proof.Machine
end

