-- ==== Sys2Proof/Machine/PrfApply.lean ====
section
/-! DEFINITION. PRF.APPLY (R207). -/
namespace Sys2Proof.Machine

/-- PRF.APPLY (R207): the PRF of the host's key and counter into BOUT0-3, 0 past word M-1. The key is used as given, and
no engine state, RESULT or CONSUMED is written. -/
def execPrfApply (s : State) : Result :=
  runCommand s fun snap =>
    .ok { s with res := { s.res with bout := hold (prf s.cfg (keyOperand s.cfg snap) (ctrOperand s.cfg snap)) } }

end Sys2Proof.Machine
end

