-- ==== Sys2Proof/Machine/Seed.lean ====
section
/-! DEFINITION. Seeding, restart and state transfer: SEED.KEY, SEED.INT, SEED.RANGE, SEED.SEQ, RESTART, LOAD
(42_engine_seed.md), and the host's serialization (R239) and equality (R275). -/
namespace Sys2Proof.Machine

/-- What every successful seed writes: ST.KEY with the marker, ST.CTR, and ST.CURSOR = Nresult; ST.BLK becomes stale
(R234 to R237). -/
def seedEngine (c : Cfg) (key base : Seq c.width.bits) (e : Engine) : Engine :=
  { e with key := hold (encKey c key), ctr := hold base, cursor := BitVec.ofNat 9 c.nresult }

/-- The checked tail of the direct-value path: check_key, then check_base, then the writes (R232, R233, R234, R235). -/
def seedChecked (s : State) (key base : Seq s.cfg.width.bits) : Except CmdError State :=
  if keyRejected s.cfg key then .error .keyRange
  else if baseRejected s.cfg base then .error .baseRange
  else .ok { s with eng := seedEngine s.cfg key base s.eng }

/-- SEED.KEY (R234). -/
def execSeedKey (b : Bool) (s : State) : Result :=
  runCommand s fun snap => seedChecked s (keyOperand s.cfg snap) (baseOperand s.cfg b snap)

/-- SEED.INT (R235): make_from_int over the key type, then the direct-value path. -/
def execSeedInt (b : Bool) (s : State) : Result :=
  runCommand s fun snap =>
    match makeFromInt s.cfg.width.bits s.cfg.k snap.arg.toNat with
    | none => .error .intRange
    | some key => seedChecked s key (baseOperand s.cfg b snap)

/-- The writes of the range and seed-sequence path: the key's marker is put in silently, the counter is zero, and
CONSUMED is reported (R236, R237, R242). -/
def seedPacked (s : State) (key : Seq s.cfg.width.bits) (consumed : Nat) : State :=
  { s with
    eng := seedEngine s.cfg key (makeZero s.cfg.width.bits s.cfg.n) s.eng
    res := { s.res with consumed := BitVec.ofNat 4 consumed } }

/-- The input of SEED.RANGE packed over the key type, with input words of 64 bits when U = 1 and 32 when U = 0
(R144, R236). -/
def packedRange (c : Cfg) (wide : Bool) (len : Nat) (snap : Staging) : Packed c.width.bits :=
  if wide then pack c.width.bits c.k (inputOperand 64 len snap)
  else pack c.width.bits c.k (inputOperand 32 len snap)

/-- SEED.RANGE (R236). No word decodes to L above 8; such a term fails as R117 says. -/
def execSeedRange (strict wide : Bool) (len : BitVec 4) (s : State) : Result :=
  runCommand s fun snap =>
    if 8 < len.toNat then .error (.illegal .lengthOutOfRange)
    else
      let p := packedRange s.cfg wide len.toNat snap
      if strict ∧ p.leftover ≠ 0 then .error .leftoverRange
      else .ok (seedPacked s p.target p.consumed)

/-- SEED.SEQ (R237): KBITS/32 words of 32 bits that the host's seed sequence generated. -/
def execSeedSeq (s : State) : Result :=
  runCommand s fun snap =>
    let n := s.cfg.kbits / 32
    .ok (seedPacked s (makeFromSeedseq s.cfg.width.bits s.cfg.k (inputOperand 32 n snap)) n)

/-- RESTART (R238): a checked base into ST.CTR, ST.CURSOR = Nresult, ST.KEY untouched. -/
def execRestart (s : State) : Result :=
  runCommand s fun snap =>
    let base := ctrOperand s.cfg snap
    if baseRejected s.cfg base then .error .baseRange
    else .ok { s with eng := { s.eng with ctr := hold base, cursor := BitVec.ofNat 9 s.cfg.nresult } }

/-- The engine LOAD installs: key and counter as given, the cursor, and the block recomputed when the cursor is below
Nresult (R240). -/
def loadEngine (c : Cfg) (cursor : Nat) (ctr key : Seq c.width.bits) (e : Engine) : Engine :=
  { key := hold key
    ctr := hold ctr
    cursor := BitVec.ofNat 9 cursor
    blk := if cursor < c.nresult then hold (prf c key ctr) else e.blk }

/-- LOAD (R240). -/
def execLoad (s : State) : Result :=
  runCommand s fun snap =>
    let cursor := snap.arg.toNat
    let ctr := ctrOperand s.cfg snap
    let key := keyOperand s.cfg snap
    if s.cfg.nresult < cursor then .error .malformedCursor
    else if markerField s.cfg key ≠ s.cfg.ctrBits - 1 then .error .malformedMarker
    else .ok { s with eng := loadEngine s.cfg cursor ctr key s.eng }

/-- Serialization: the state S of R239, read through the views: CURSOR, CTR0..CTR(N-1), KEY0..KEY(K-1). -/
def serialize (s : State) : List Reg :=
  readName s .cursor
    :: ((List.finRange 4).take s.cfg.n).map (fun n => readName s (.ctr n))
    ++ ((List.finRange 4).take s.cfg.k).map (fun n => readName s (.key n))

/-- The staging registers the host writes before LOAD to restore a serialized state (R239, R240, R121 RESTORE): the
cursor to ARG, the counter words to CTRIN0.., the key words to KEYIN0... -/
def stageState (n : Nat) (saved : List Reg) (stg : Staging) : Staging :=
  { stg with arg := saved.getD 0 0, ctrin := quadOf ((saved.drop 1).take n), keyin := quadOf (saved.drop (1 + n)) }

/-- Equality of two engines of one configuration: counter, cursor and key (R275). ST.BLK is not compared. -/
def engineEq (c : Cfg) (e f : Engine) : Bool :=
  isEqual (ctrSeq c e) (ctrSeq c f) && decide (e.cursor = f.cursor) && isEqual (keySeq c e) (keySeq c f)

end Sys2Proof.Machine
end

