-- ==== Sys2Proof/Machine/Dispatch.lean ====
section
/-! DEFINITION. One arm for each command: the Complete step of a command on a state whose PEND holds it (R113, R343). -/
namespace Sys2Proof.Machine

def exec (i : Instr) (s : State) : Host.Outcome State Fault Refusal :=
  match i with
  | .nop => Sys2Proof.Machine.execNop s
  | .seedKey b => Sys2Proof.Machine.execSeedKey b s
  | .seedInt b => Sys2Proof.Machine.execSeedInt b s
  | .seedRange strict wide len => Sys2Proof.Machine.execSeedRange strict wide len s
  | .seedSeq => Sys2Proof.Machine.execSeedSeq s
  | .restart => Sys2Proof.Machine.execRestart s
  | .load => Sys2Proof.Machine.execLoad s
  | .next => Sys2Proof.Machine.execNext s
  | .discard => Sys2Proof.Machine.execDiscard s
  | .prfApply => Sys2Proof.Machine.execPrfApply s
  | .clrst => Sys2Proof.Machine.execClrst s

end Sys2Proof.Machine
end

