-- ==== Sys2Proof/Machine/Port.lean ====
section
/-! DEFINITION. The steps of the block (R343): Complete, and what each coming step of the world does. -/
namespace Sys2Proof.Machine

/-- Complete (R343): the accepted word is decoded now (R114) and its command runs and ends; an illegal word ends with
ILLEGAL_COMMAND (R114 to R117). Enabled only when PEND holds a command. -/
def complete (s : State) : Result :=
  match s.pend with
  | none => .refused .noCommandInFlight
  | some p =>
    match decode p.cmd with
    | .ok i => exec i s
    | .error e => .next (failWith p (.illegal e) s)

/-- One step of the world (R343, R84). -/
def serve (e : Event) (s : State) : Result :=
  match e with
  | .hostRead i => .next (hostRead i s)
  | .hostWrite i x => .next (regWrite i x s)
  | .busRead offset size => busRead offset size s
  | .busWrite offset data => busWrite offset data s
  | .complete => complete s
  | .reset => .next (resetStep s)

/-- The step when `inputs` is empty: a command in flight completes (fairness, R350), and an idle block that nobody
accesses stays as it is. DESIGN CHOICE, logs 3 and 4, safe. -/
def quiet (s : State) : Result := if busy s then complete s else .next s

/-- A state with a command word accepted as of now, whatever was in flight, and Complete as the next step: the "program"
of a machine that fetches nothing is its next CMD write (R95; log 5). -/
def withCommand (cw : Reg) (s : State) : State := { accept cw s with inputs := .complete :: s.inputs }

end Sys2Proof.Machine
end

