-- ==== Sys2Proof/Machine/Step.lean ====
section
/-! DEFINITION. One step of the machine (R343). -/
namespace Sys2Proof.Machine

/-- One step: the first of the coming steps is served; with none left the block is quiet (logs 2, 3, 4). -/
def step (s : State) : Host.Outcome State Fault Refusal :=
  match s.inputs with
  | [] => quiet s
  | e :: rest => serve e { s with inputs := rest }

/-- `s` with the command word `w` accepted and its Complete next, so that the very next step runs it (log 5). A command
is one 64-bit word (R110); bits from `nbits` up are 0. -/
def State.withFetchWord (s : State) (nbits w : Nat) : State := withCommand (tableWord nbits w) s

end Sys2Proof.Machine
end

