-- ==== Sys2Proof/Machine/Script.lean ====
section
/-! DEFINITION. Host command scripts (R120, R121): statements, pseudo-instructions with their expansions, their text
written and read, and the steps of the world they stand for. Host-side: nothing of it is state of the block. -/
namespace Sys2Proof.Machine

/-- A statement of a host script (R120). -/
inductive Stmt where
  /-- `WR <reg>, <value>`. -/
  | wr (r : RegName) (x : Reg)
  /-- `RD <reg>`. -/
  | rd (r : RegName)
  /-- `POLL`: RD STATUS until BUSY = 0. -/
  | poll
  /-- A command statement: `WR CMD, <word>`. -/
  | command (i : Instr)
  deriving DecidableEq, Repr

/-- A pseudo-instruction (R121). -/
inductive Pseudo where
  | exec (i : Instr)
  | draw
  | skip (n : Reg)
  | seedI (x : Reg)
  | seedK (key : List Reg)
  | save
  | restore (cursor : Reg) (ctr key : List Reg)
  | check
  deriving DecidableEq, Repr

/-- `EXEC <cmd>` (R121). -/
def execStmts (i : Instr) : List Stmt := [.command i, .poll]

/-- Writes of the listed values to the registers of a group, register 0 first; at most four. -/
def groupWrites (reg : Fin 4 → RegName) (xs : List Reg) : List Stmt :=
  ((List.finRange 4).zip xs).map fun (n, x) => .wr (reg n) x

/-- The expansion of a pseudo-instruction (R121). -/
def expand (c : Cfg) : Pseudo → List Stmt
  | .exec i => execStmts i
  | .draw =>
    execStmts .next ++
      (if 64 < c.w then (List.finRange 4).map (fun n => .rd (.result n)) else [.rd (.result 0)])
  | .skip n => .wr .arg n :: execStmts .discard
  | .seedI x => .wr .arg x :: execStmts (.seedInt false)
  | .seedK key => groupWrites .keyin key ++ execStmts (.seedKey false)
  | .save =>
    .rd .cursor
      :: ((List.finRange 4).take c.n).map (fun n => .rd (.ctr n))
      ++ ((List.finRange 4).take c.k).map (fun n => .rd (.key n))
  | .restore cursor ctr key =>
    .wr .arg cursor :: (groupWrites .ctrin ctr ++ groupWrites .keyin key ++ execStmts .load)
  | .check => [.rd .status]

/-- How a script sees the block: `none` while it is idle, and with a command in flight the number of accesses of the
host that still come before its Complete, the part of LATENCY a host can see (R350). -/
abbrev InFlight := Option Nat

/-- The Complete that comes before the host's next access: one when no access is left to wait for. -/
def completeDue : InFlight → List Event
  | some 0 => [.complete]
  | some (_ + 1) => []
  | none => []

/-- The block after one more access that issues no command. -/
def afterAccess : InFlight → InFlight
  | some (n + 1) => some n
  | some 0 => none
  | none => none

/-- Does a statement write CMD? -/
def writesCmd : Stmt → Bool
  | .wr r _ => decide (r = .cmd)
  | .rd _ => false
  | .poll => false
  | .command _ => true

/-- A write of CMD finds the block idle, so that it is accepted; on a busy block it is dropped (R37, R344). -/
def acceptsCmd (left : InFlight) (st : Stmt) : Bool := writesCmd st && (afterAccess left).isNone

/-- The block after a statement; an accepted command waits for `latency` accesses. POLL leaves it idle. -/
def afterStmt (latency : Nat) (left : InFlight) (st : Stmt) : InFlight :=
  if st = .poll then none else if acceptsCmd left st then some latency else afterAccess left

/-- The reads of a POLL up to the one that finds BUSY = 0 (R120): one read of an idle block; with a command in flight,
the reads that find BUSY = 1, its Complete, and one read. -/
def pollEvents : InFlight → List Event
  | none => [.hostRead (regIndex .status)]
  | some n => List.replicate n (.hostRead (regIndex .status)) ++ [.complete, .hostRead (regIndex .status)]

/-- The steps of one statement (R120), the Complete that is due before its access among them. -/
def stmtEvents (left : InFlight) : Stmt → List Event
  | .wr r x => completeDue left ++ [.hostWrite (regIndex r) x]
  | .rd r => completeDue left ++ [.hostRead (regIndex r)]
  | .poll => pollEvents left
  | .command i => completeDue left ++ [.hostWrite (regIndex .cmd) (encode i)]

/-- The steps of a script from a block in the given condition. The n-th accepted command waits for the n-th of
`latencies` accesses, and for none past the list's end: LATENCY may differ per occurrence (R350). -/
def scriptEvents (latencies : List Nat) (left : InFlight) : List Stmt → List Event
  | [] => []
  | st :: rest =>
    stmtEvents left st ++
      scriptEvents (if acceptsCmd left st then latencies.tail else latencies)
        (afterStmt (latencies.headD 0) left st) rest

/-- The text of a command statement (R120). -/
def commandText : Instr → String
  | .nop => "NOP"
  | .seedKey b => if b then "SEED.KEY base" else "SEED.KEY"
  | .seedInt b => if b then "SEED.INT base" else "SEED.INT"
  | .seedRange strict wide len =>
    "SEED.RANGE " ++ (if wide then "u64" else "u32") ++ ", " ++ toString len.toNat ++ (if strict then ", strict" else "")
  | .seedSeq => "SEED.SEQ"
  | .restart => "RESTART"
  | .load => "LOAD"
  | .next => "NEXT"
  | .discard => "DISCARD"
  | .prfApply => "PRF.APPLY"
  | .clrst => "CLRST"

/-- The name of a register in a script (R120); the reserved indices have none. -/
def regText : RegName → String
  | .cmd => "CMD"
  | .status => "STATUS"
  | .arg => "ARG"
  | .consumed => "CONSUMED"
  | .keyin n => "KEYIN" ++ toString n.val
  | .ctrin n => "CTRIN" ++ toString n.val
  | .din n => "DIN" ++ toString n.val
  | .result n => "RESULT" ++ toString n.val
  | .bout n => "BOUT" ++ toString n.val
  | .cursor => "CURSOR"
  | .ctr n => "CTR" ++ toString n.val
  | .key n => "KEY" ++ toString n.val
  | .reserved => ""
  | .id => "ID"
  | .config => "CONFIG"

/-- The text of a statement, values in decimal (R120). -/
def stmtText : Stmt → String
  | .wr r x => "WR " ++ regText r ++ ", " ++ toString x.toNat
  | .rd r => "RD " ++ regText r
  | .poll => "POLL"
  | .command i => commandText i

/-- The tokens of a line: cut at blanks and commas, up to the `;` of a comment (R120). -/
def tokens : List Char → List Char → List String
  | cur, [] => if cur.isEmpty then [] else [String.ofList cur]
  | cur, ch :: rest =>
    let done := if cur.isEmpty then [] else [String.ofList cur]
    if ch = ';' then done
    else if ch = ' ' ∨ ch = '\t' ∨ ch = ',' then done ++ tokens [] rest
    else tokens (cur ++ [ch]) rest

/-- One digit, decimal or hexadecimal. -/
def digit (base : Nat) (ch : Char) : Option Nat :=
  let n := ch.toNat
  let d :=
    if 0x30 ≤ n ∧ n ≤ 0x39 then n - 0x30
    else if 0x41 ≤ n ∧ n ≤ 0x46 then n - 0x37
    else if 0x61 ≤ n ∧ n ≤ 0x66 then n - 0x57
    else base
  if d < base then some d else none

/-- The number of a list of digits, most significant first. -/
def number (base : Nat) : Nat → List Char → Option Nat
  | acc, [] => some acc
  | acc, ch :: rest =>
    match digit base ch with
    | none => none
    | some d => number base (acc * base + d) rest

/-- A value: decimal, or hexadecimal after `0x` (R120); at most 64 bits, a register's width. -/
def readValue (tok : String) : Option Reg :=
  let n :=
    match tok.toList with
    | [] => none
    | '0' :: 'x' :: [] => none
    | '0' :: 'x' :: ds => number 16 0 ds
    | ds => number 10 0 ds
  match n with
  | some a => if a < 2 ^ 64 then some (BitVec.ofNat 64 a) else none
  | none => none

/-- All tokens as values. -/
def readValues : List String → Option (List Reg)
  | [] => some []
  | tok :: rest =>
    match readValue tok, readValues rest with
    | some x, some xs => some (x :: xs)
    | _, _ => none

/-- The register a name in a script names (R120). -/
def readReg (tok : String) : Option RegName :=
  ((List.finRange 64).map (fun i => regName (BitVec.ofFin i))).find? fun r => decide (r ≠ .reserved ∧ regText r = tok)

/-- The command a command statement's tokens name (R120); L as the field holds it, 0 to 15. -/
def readCommand : List String → Option Instr
  | ["NOP"] => some .nop
  | ["SEED.KEY"] => some (.seedKey false)
  | ["SEED.KEY", "base"] => some (.seedKey true)
  | ["SEED.INT"] => some (.seedInt false)
  | ["SEED.INT", "base"] => some (.seedInt true)
  | "SEED.RANGE" :: width :: len :: strict =>
    match readValue len with
    | none => none
    | some n =>
      if (width = "u32" ∨ width = "u64") ∧ (strict = [] ∨ strict = ["strict"]) ∧ n.toNat < 16 then
        some (.seedRange (decide (strict = ["strict"])) (decide (width = "u64")) (BitVec.ofNat 4 n.toNat))
      else none
  | ["SEED.SEQ"] => some .seedSeq
  | ["RESTART"] => some .restart
  | ["LOAD"] => some .load
  | ["NEXT"] => some .next
  | ["DISCARD"] => some .discard
  | ["PRF.APPLY"] => some .prfApply
  | ["CLRST"] => some .clrst
  | _ => none

/-- The statement of a line's tokens (R120). -/
def readStmt : List String → Option Stmt
  | ["WR", r, x] =>
    match readReg r, readValue x with
    | some reg, some v => some (.wr reg v)
    | _, _ => none
  | ["RD", r] => (readReg r).map .rd
  | ["POLL"] => some .poll
  | toks => (readCommand toks).map .command

/-- The pseudo-instruction of a line's tokens (R121); RESTORE's values are the cursor, N counter words, K key words, and
SEEDK's K key words. -/
def readPseudo (c : Cfg) : List String → Option Pseudo
  | "EXEC" :: toks => (readCommand toks).map .exec
  | ["DRAW"] => some .draw
  | ["SKIP", x] => (readValue x).map .skip
  | ["SEEDI", x] => (readValue x).map .seedI
  | "SEEDK" :: toks =>
    match readValues toks with
    | some xs => if xs.length = c.k then some (.seedK xs) else none
    | none => none
  | ["SAVE"] => some .save
  | "RESTORE" :: toks =>
    match readValues toks with
    | some (x :: xs) =>
      if xs.length = c.n + c.k then some (.restore x (xs.take c.n) (xs.drop c.n)) else none
    | _ => none
  | ["CHECK"] => some .check
  | _ => none

/-- The statements of one line of a script; none when it is not one (R120, R121). A blank line has no statement. -/
def readLine (c : Cfg) (line : String) : Option (List Stmt) :=
  let toks := tokens [] line.toList
  if toks = [] then some []
  else
    match readPseudo c toks with
    | some p => some (expand c p)
    | none => (readStmt toks).map fun st => [st]

end Sys2Proof.Machine
end

