-- ==== Sys2Proof/Safety.lean ====
section
/-! DEFINITION. The invariants of the block (R34 and the register rules) and the terms in which statements speak of
commands issued one after another. -/
namespace Sys2Proof.Machine

/-- A group of registers holds exactly a sequence of n words of v bits: zero above bit v-1 and past word n-1 (R36). -/
abbrev Fits (v n : Nat) (q : Quad) : Prop := hold (seqOf v n q) = q

/-- The engine is well formed and its invariants hold (R34): I1 cache coherence, I3 marker, I4 cursor; I2 is a property
of steps. -/
structure EngineInv (c : Cfg) (e : Engine) : Prop where
  keyFits : Fits c.width.bits c.k e.key
  ctrFits : Fits c.width.bits c.n e.ctr
  blkFits : Fits c.width.bits c.m e.blk
  /-- I1 (R34). -/
  coherent : e.cursor.toNat < c.nresult → blkSeq c e = prf c (keySeq c e) (ctrSeq c e)
  /-- I3 (R34). -/
  marker : markerField c (keySeq c e) = c.ctrBits - 1
  /-- I4 (R34). -/
  cursorRange : e.cursor.toNat ≤ c.nresult

/-- The word registers of the staging registers hold V-bit words (R36). -/
structure StagingInv (c : Cfg) (stg : Staging) : Prop where
  keyinFits : Fits c.width.bits 4 stg.keyin
  ctrinFits : Fits c.width.bits 4 stg.ctrin

/-- The result registers hold what their rules let them hold: a w-bit result (R44, R276), M words (R45), a position 0 to
8 (R40). -/
structure ResultsInv (c : Cfg) (r : Results) : Prop where
  resultRange : val (quadRegs r.result) < 2 ^ c.w
  boutFits : Fits c.width.bits c.m r.bout
  consumedRange : r.consumed.toNat ≤ 8

/-- The invariant of the block: every step keeps it, and reset establishes it. -/
structure Inv (s : State) : Prop where
  engine : EngineInv s.cfg s.eng
  staging : StagingInv s.cfg s.stg
  results : ResultsInv s.cfg s.res
  /-- No other (CODE, DETAIL) pair is ever written (R302). -/
  statusPair : (s.status.code, s.status.detail) ∈ statusPairs
  /-- While idle, LASTOP is the opcode of the word CMD holds (R37, R38, R303, R304). -/
  lastop : s.pend = none → s.status.lastop = opField s.cmd
  /-- The command in flight is the word CMD holds (R37, R52). -/
  inFlight : ∀ p, s.pend = some p → p.cmd = s.cmd
  /-- SNAP is a copy of well-formed staging registers (R52). -/
  snapshot : ∀ p, s.pend = some p → StagingInv s.cfg p.snap

/-- A command issued and completed: its word is accepted, and its Complete is the next step (R343). Meant for an idle
block. -/
def issue (i : Instr) (s : State) : Result := exec i (accept (encode i) s)

/-- The state a failing command p leaves, its CODE and DETAIL as numbers of R301 and R302: LASTOP and PEND besides, and
nothing else (R303). -/
def endsWith (p : Pending) (code detail : BitVec 8) (s : State) : State :=
  { s with
    pend := none
    status := { dropped := s.status.dropped, code := code, detail := detail, lastop := opField p.cmd } }

/-- The last completed command succeeded (R301). -/
abbrev Ok (s : State) : Prop := s.status.code = 0x00

/-- n NEXT commands issued one after another; `none` as soon as one of them does not succeed. -/
def draws : Nat → State → Option State
  | 0, s => some s
  | n + 1, s =>
    match issue .next s with
    | .next t => if Ok t then draws n t else none
    | .fault _ => none
    | .refused _ => none

/-- The state with a value in ARG. -/
def withArg (x : Reg) (s : State) : State := { s with stg := { s.stg with arg := x } }

/-- DISCARD x issued with x in ARG. -/
def discards (x : Reg) (s : State) : Result := issue .discard (withArg x s)

/-- The two engines are equal as R275 compares them. -/
abbrev SameEngine (c : Cfg) (s t : State) : Prop := engineEq c s.eng t.eng = true

/-- The j-th result of the output stream from key and base (R277). -/
def streamResult (c : Cfg) (key base : Seq c.width.bits) (j : Nat) : BitVec c.w :=
  atW c.w (j % c.nresult) (prf c key (wordsOf c.width.bits c.n (val base + 1 + j / c.nresult)))

end Sys2Proof.Machine
end

