-- ==== Sys2Proof/Certificates/Slice0/Obligations.lean ====
section
/-! DEFINITION. The statements for the provers, from the numbered rules of spec/. Each is about every configuration and
every state but for the hypotheses it writes out. -/

open Sys2Proof Sys2Proof.Machine

/-! ### The command word -/

/-- Decode and encode agree: every well-formed command is read back from its word, with every field at every value; the
ill-formed terms (L above 8) are the ones R117 makes illegal (R111, R113, R117). -/
def Obligations.DecodeOfEncode : Prop :=
  (∀ i : Instr, i.wellFormed = true → decode (encode i) = .ok i) ∧
    ∀ i : Instr, i.wellFormed = false → decode (encode i) = .error .lengthOutOfRange

/-- Each legal command word is the word of exactly one command: no bit of the 64 is ignored (R110, R112, R116). -/
def Obligations.EncodeOfDecode : Prop :=
  ∀ (cw : Reg) (i : Instr), decode cw = .ok i → encode i = cw ∧ i.wellFormed = true

/-- The words R120 and R122 write out, and the ILLEGAL_COMMAND details of the illegal ones (R122). -/
def Obligations.WrittenOutWords : Prop :=
  decode 0x00000000 = .ok .nop ∧ decode 0x00000001 = .ok (.seedKey false) ∧ decode 0x00000101 = .ok (.seedKey true) ∧
    decode 0x00000002 = .ok (.seedInt false) ∧ decode 0x00000102 = .ok (.seedInt true) ∧
    decode 0x00010603 = .ok (.seedRange true true 1) ∧ decode 0x00080003 = .ok (.seedRange false false 8) ∧
    decode 0x00000004 = .ok .seedSeq ∧ decode 0x00000005 = .ok .restart ∧ decode 0x00000006 = .ok .load ∧
    decode 0x00000008 = .ok .next ∧ decode 0x00000009 = .ok .discard ∧ decode 0x0000000C = .ok .prfApply ∧
    decode 0x0000000F = .ok .clrst ∧ decode 0x00000108 = .error .reservedBit ∧
    decode 0x00000007 = .error .unassignedOpcode ∧ decode 0x00090003 = .error .lengthOutOfRange ∧
    decode 0x0000000100000008 = .error .reservedBit

/-- Illegal command words complete with ILLEGAL_COMMAND and the detail of the first failing check, and nothing but
STATUS and PEND changes (R114, R115, R116, R117). -/
def Obligations.IllegalWordsWriteStatusOnly : Prop :=
  ∀ (s : State) (p : Pending), s.pend = some p →
    let assigned : List (BitVec 8) := [0x00, 0x01, 0x02, 0x03, 0x04, 0x05, 0x06, 0x08, 0x09, 0x0C, 0x0F]
    let op := opField p.cmd
    let free : Reg := if op = 0x01 ∨ op = 0x02 then 0x1FF else if op = 0x03 then 0xF06FF else 0xFF
    let ends (detail : BitVec 8) : State :=
      { s with pend := none, status := { s.status with code := 0x05, detail := detail, lastop := op } }
    (op ∉ assigned → complete s = .next (ends 0x01)) ∧
      (op ∈ assigned → p.cmd &&& ~~~free ≠ 0 → complete s = .next (ends 0x02)) ∧
      (op = 0x03 → p.cmd &&& ~~~free = 0 → 8 < (lField p.cmd).toNat → complete s = .next (ends 0x03))

/-! ### The steps -/

/-- A step runs the decoded command: when Complete comes next, or nothing is asked for, the command in flight runs, and
`withFetchWord` puts a word there, so that the next step runs it (R114, R343). Two clauses are the model's choices and no
rule's: the empty `inputs` is log 4 (DESIGN CHOICE), and `withFetchWord`, on busy states too, is log 5 (DESIGN CHOICE). -/
def Obligations.StepRunsDecoded : Prop :=
  (∀ (s : State) (p : Pending) (i : Instr), s.pend = some p → decode p.cmd = .ok i →
      (∀ rest, s.inputs = .complete :: rest → step s = exec i { s with inputs := rest }) ∧
        (s.inputs = [] → step s = exec i s)) ∧
    ∀ (s : State) (nbits w : Nat) (i : Instr), decodeTableWord nbits w = some i →
      step (s.withFetchWord nbits w) = exec i (accept (tableWord nbits w) s)

/-- A host write to CMD while idle is accepted: CMD and PEND take the word, SNAP the staging registers, and DROPPED falls
for the one legal CLRST word (R37, R52, R343). -/
def Obligations.CmdWriteAcceptedWhenIdle : Prop :=
  ∀ (s : State) (cw : Reg) (rest : List Event), s.pend = none → s.inputs = .hostWrite 0x00 cw :: rest →
    step s = .next { s with
      inputs := rest
      cmd := cw
      pend := some { cmd := cw, snap := s.stg }
      status := { s.status with dropped := if cw = 0x000000000000000F then false else s.status.dropped } }

/-- A host write to CMD while busy is dropped: it changes DROPPED and nothing else. DROPPED stays 1 over every step but
Reset and the acceptance of CLRST, the step that takes PEND from empty to a record of CLRST's word; the host reads it in
STATUS bit 1 (R344). -/
def Obligations.CmdWriteDroppedWhenBusy : Prop :=
  (∀ (s : State) (p : Pending) (cw : Reg) (rest : List Event), s.pend = some p →
      s.inputs = .hostWrite 0x00 cw :: rest →
      step s = .next { s with inputs := rest, status := { s.status with dropped := true } }) ∧
    (∀ s t : State, s.status.dropped = true → step s = .next t →
      t.status.dropped = true ∨ s.inputs.head? = some .reset ∨
        (s.pend = none ∧ ∃ p, t.pend = some p ∧ p.cmd = 0x0F ∧ t.cmd = 0x0F)) ∧
    ∀ s : State, (regRead s 0x01).getLsbD 1 = s.status.dropped

/-- A HostRead returns the register's value and changes no state of the block (R81, R343); the returned value goes to the
model's own `reads` (log 6). -/
def Obligations.HostReadChangesNothing : Prop :=
  ∀ (s : State) (i : Index) (rest : List Event), s.inputs = .hostRead i :: rest →
    step s = .next { s with inputs := rest, reads := (i, regRead s i) :: s.reads }

/-- On a byte bus, an aligned 8-byte access at offset 8·i is the access to register i, bytes in little-endian lanes, and
any other access is refused (R84). -/
def Obligations.BusAccessIsRegisterAccess : Prop :=
  (∀ (s : State) (i : Index), busRead (8 * i.toNat) 8 s = .next (hostRead i s)) ∧
    (∀ (s : State) (i : Index) (x : Reg), busWrite (8 * i.toNat) (busBytes x) s = .next (regWrite i x s)) ∧
    (∀ (x : Reg) (j : Nat), j < 8 → (busBytes x).getD j 0 = x.extractLsb' (8 * j) 8) ∧
    ∀ (s : State) (offset size : Nat), ¬(size = 8 ∧ offset % 8 = 0 ∧ offset < 512) →
      busRead offset size s = .refused .busAccess ∧
        ∀ data : List (BitVec 8), data.length = size → busWrite offset data s = .refused .busAccess

/-- Nothing leaves the block stuck: no step faults, and a step is refused only when it asks for what is no step of the
block (R310, R343, R84, U14). -/
def Obligations.NeverStuck : Prop :=
  ∀ s : State, (∃ t, step s = .next t) ∨
    (step s = .refused .noCommandInFlight ∧ s.pend = none ∧ s.inputs.head? = some .complete) ∨
    (step s = .refused .busAccess ∧ ∃ offset size data,
      (s.inputs.head? = some (.busRead offset size) ∨
        (s.inputs.head? = some (.busWrite offset data) ∧ data.length = size)) ∧
      ¬(size = 8 ∧ offset % 8 = 0 ∧ offset < 512))

/-- A host that polls sees the command complete: after any number of STATUS reads the next step completes it. That an
empty `inputs` completes is the model's choice for the fairness of R350 (log 4). -/
def Obligations.PollingFindsIdle : Prop :=
  ∀ (s : State) (p : Pending) (reads : Nat), s.pend = some p →
    s.inputs = List.replicate reads (.hostRead 0x01) →
    ∃ t : State, Host.Core.run Sys2Proof.core (reads + 1) s = .next t ∧ t.pend = none

/-- While a command is in flight, a step that is neither Complete nor Reset leaves the engine, the results, CMD and PEND
as they are; of STATUS only DROPPED may change, and of the registers the host reads only STATUS and the staging
registers (R91, R345). -/
def Obligations.RegistersStableInFlight : Prop :=
  ∀ (s t : State) (p : Pending) (e : Event) (rest : List Event), s.pend = some p → s.inputs = e :: rest →
    e ≠ .complete → e ≠ .reset → step s = .next t →
    t.pend = s.pend ∧ t.eng = s.eng ∧ t.res = s.res ∧ t.cmd = s.cmd ∧ t.cfg = s.cfg ∧
      (t.status = s.status ∨ t.status = { s.status with dropped := true }) ∧
      regRead t 0x01 ||| 0x02 = regRead s 0x01 ||| 0x02 ∧
      ∀ i : Index, (i.toNat = 0x00 ∨ i.toNat = 0x03 ∨ 0x14 ≤ i.toNat) → regRead t i = regRead s i

/-- A command reads its operands only from SNAP: what the staging registers hold when it completes changes nothing of
its outcome (R52, R346). -/
def Obligations.OutcomeIndependentOfStaging : Prop :=
  ∀ (i : Instr) (s t : State) (stg : Staging), exec i s = .next t →
    exec i { s with stg := stg } = .next { t with stg := stg }

/-- A write to a staging register is stored and read back, V bits of it in a word register, and no other register's
value changes (R36, R39, R41, R42, R43, R87). -/
def Obligations.StagingWriteReadsBack : Prop :=
  ∀ (s : State) (i : Index) (x : Reg), i.toNat = 0x02 ∨ (0x04 ≤ i.toNat ∧ i.toNat ≤ 0x13) →
    regRead (regWrite i x s) i =
        (if 0x04 ≤ i.toNat ∧ i.toNat ≤ 0x0B then BitVec.ofNat 64 (x.toNat % 2 ^ s.cfg.v) else x) ∧
      ∀ j : Index, j ≠ i → regRead (regWrite i x s) j = regRead s j

/-- Writes to read-only and reserved registers are ignored, and the reserved indices read 0 (R35, R49, R87). -/
def Obligations.ReadOnlyWritesIgnored : Prop :=
  (∀ (s : State) (i : Index) (x : Reg), (i.toNat = 0x01 ∨ i.toNat = 0x03 ∨ 0x14 ≤ i.toNat) → regWrite i x s = s) ∧
    ∀ (s : State) (i : Index), 0x25 ≤ i.toNat → i.toNat ≤ 0x3D → regRead s i = 0

/-- The read-only registers as the host reads them: CURSOR is ST.CURSOR; CTRn and KEYn are the words of ST.CTR and
ST.KEY, V bits each, and 0 from word N or K on (R46, R47, R48); index 0x00 is CMD, 0x03 CONSUMED, 0x14 to 0x17 RESULT0-3,
and 0x18 to 0x1B BOUT0-3, V bits each (R35, R36, R37, R40, R44, R45). -/
def Obligations.EngineViews : Prop :=
  ∀ (s : State), (regRead s 0x1C).toNat = s.eng.cursor.toNat ∧
    (∀ n : Nat, n < 4 →
      (regRead s (BitVec.ofNat 6 (0x1D + n))).toNat =
          (if n < s.cfg.n then val (ctrSeq s.cfg s.eng) / 2 ^ (n * s.cfg.v) % 2 ^ s.cfg.v else 0) ∧
        (regRead s (BitVec.ofNat 6 (0x21 + n))).toNat =
          (if n < s.cfg.k then val (keySeq s.cfg s.eng) / 2 ^ (n * s.cfg.v) % 2 ^ s.cfg.v else 0)) ∧
    regRead s 0x00 = s.cmd ∧ (regRead s 0x03).toNat = s.res.consumed.toNat ∧
    (regRead s 0x14 = s.res.result.w0 ∧ regRead s 0x15 = s.res.result.w1 ∧ regRead s 0x16 = s.res.result.w2 ∧
      regRead s 0x17 = s.res.result.w3) ∧
    (regRead s 0x18).toNat = s.res.bout.w0.toNat % 2 ^ s.cfg.v ∧
    (regRead s 0x19).toNat = s.res.bout.w1.toNat % 2 ^ s.cfg.v ∧
    (regRead s 0x1A).toNat = s.res.bout.w2.toNat % 2 ^ s.cfg.v ∧
    (regRead s 0x1B).toNat = s.res.bout.w3.toNat % 2 ^ s.cfg.v

/-- STATUS as the host reads it: its fields, and 0 in the reserved bits (R38). -/
def Obligations.StatusFields : Prop :=
  ∀ s : State,
    (regRead s 0x01).getLsbD 0 = s.pend.isSome ∧ (regRead s 0x01).getLsbD 1 = s.status.dropped ∧
      (regRead s 0x01).extractLsb' 2 6 = 0 ∧ (regRead s 0x01).extractLsb' 8 8 = s.status.code ∧
      (regRead s 0x01).extractLsb' 16 8 = s.status.detail ∧ (regRead s 0x01).extractLsb' 24 8 = s.status.lastop ∧
      (regRead s 0x01).extractLsb' 32 32 = 0

/-- ID and CONFIG as the host reads them, in every configuration (R50, R51). -/
def Obligations.IdAndConfig : Prop :=
  (∀ s : State, regRead s 0x3E = 0x5231323300070001) ∧
    (∀ s : State,
      let x := (regRead s 0x3F).toNat
      x % 2 = (if s.cfg.prf = .philox then 0 else 1) ∧ x / 2 % 8 = 0 ∧ x / 2 ^ 4 % 16 = s.cfg.n ∧
        x / 2 ^ 8 % 16 = s.cfg.k ∧ x / 2 ^ 12 % 16 = s.cfg.m ∧ x / 2 ^ 16 % 2 ^ 8 = s.cfg.v ∧
        x / 2 ^ 24 % 2 ^ 8 = s.cfg.rounds ∧ x / 2 ^ 32 % 2 ^ 9 = s.cfg.w ∧ x / 2 ^ 41 % 2 ^ 9 = s.cfg.ctrBits ∧
        x / 2 ^ 50 % 2 ^ 9 = s.cfg.nresult ∧ x / 2 ^ 59 % 16 = s.cfg.cbb ∧ x / 2 ^ 63 = 0) ∧
    ∀ s : State, s.cfg = Cfg.a → regRead s 0x3F = 0x381040200A204240

/-! ### Reset and the invariant -/

/-- The Reset step: PEND is emptied with no commit and every piece of state takes the value of R56, whatever was in
flight (R56, R340). That the model's own `inputs` and `reads` stay is its choice (logs 2, 6). -/
def Obligations.ResetDiscardsCommand : Prop :=
  ∀ (s : State) (rest : List Event), s.inputs = .reset :: rest →
    ∃ t : State, step s = .next t ∧ t.cfg = s.cfg ∧ t.pend = none ∧ t.cmd = 0 ∧
      t.status = { dropped := false, code := 0, detail := 0, lastop := 0 } ∧
      t.stg = { arg := 0, keyin := ⟨0, 0, 0, 0⟩, ctrin := ⟨0, 0, 0, 0⟩, din := ⟨0, 0, 0, 0, 0, 0, 0, 0⟩ } ∧
      t.res = { result := ⟨0, 0, 0, 0⟩, bout := ⟨0, 0, 0, 0⟩, consumed := 0 } ∧
      t.eng.ctr = ⟨0, 0, 0, 0⟩ ∧ t.eng.blk = ⟨0, 0, 0, 0⟩ ∧ t.eng.cursor.toNat = s.cfg.nresult ∧
      (∀ n : Fin 4, (quadGet t.eng.key n).toNat =
        if n.val = s.cfg.k - 1 then (s.cfg.ctrBits - 1) * 2 ^ (s.cfg.v - s.cfg.cbb) else 0) ∧
      t.inputs = rest ∧ t.reads = s.reads

/-- The invariant holds right after reset, in every configuration (R341). -/
def Obligations.ResetEstablishesInv : Prop :=
  (∀ c : Cfg, Inv (State.resetOf c)) ∧ Inv State.reset

/-- Every step keeps the invariant: I1, I3 and I4 of the engine (R34), the word registers' widths (R36), the ranges of
the result registers, and the status pairs of R302. -/
def Obligations.StepKeepsInv : Prop :=
  ∀ s t : State, Inv s → step s = .next t → Inv t

/-- The engine after reset is the one SEED.INT with ARG = 0 and B = 0 produces, but for the stale block (R56, R341). -/
def Obligations.ResetEngineIsSeedIntZero : Prop :=
  ∀ (s : State) (p : Pending), s.pend = some p → p.snap.arg = 0 →
    exec (.seedInt false) s = .next (commit p { s with eng := { Engine.reset s.cfg with blk := s.eng.blk } })

/-! ### What every command does and leaves -/

/-- What a completed command never changes, and what its completion always writes: configuration, staging registers,
CMD, DROPPED and the model's own fields stay; PEND empties; LASTOP is the accepted opcode; CODE and DETAIL are a pair
of the table of R302 (R37, R38, R302, R303, R304). -/
def Obligations.CommandFrame : Prop :=
  ∀ (i : Instr) (s t : State), exec i s = .next t →
    t.cfg = s.cfg ∧ t.stg = s.stg ∧ t.cmd = s.cmd ∧ t.status.dropped = s.status.dropped ∧ t.pend = none ∧
      t.inputs = s.inputs ∧ t.reads = s.reads ∧ (t.status.code, t.status.detail) ∈ statusPairs ∧
      ∃ p, s.pend = some p ∧ t.status.lastop = opField p.cmd

/-- A failure, of an illegal word too, changes no engine state and no result register, and the block is idle again, ready
for the next command (R300, R303). -/
def Obligations.FailureChangesNothing : Prop :=
  ∀ s t : State, complete s = .next t → t.status.code ≠ 0x00 →
    t = { s with pend := none, status := t.status } ∧ t.status.dropped = s.status.dropped

/-- A failure repeats: the same command word with the same snapshot fails again with the same CODE and DETAIL (R309). -/
def Obligations.FailureRepeats : Prop :=
  ∀ s t : State, complete s = .next t → t.status.code ≠ 0x00 →
    ∃ u, complete { t with pend := s.pend } = .next u ∧ u.status.code = t.status.code ∧
      u.status.detail = t.status.detail ∧ u = t

/-- Which commands may change a register: the column "written by" of the register map (R35), with R30, R31 and R32. -/
def Obligations.WrittenByTheMap : Prop :=
  ∀ (i : Instr) (s t : State), exec i s = .next t →
    (t.res.result ≠ s.res.result → i = .next) ∧ (t.res.bout ≠ s.res.bout → i = .prfApply) ∧
      (t.res.consumed ≠ s.res.consumed → i = .seedSeq ∨ ∃ strict wide len, i = .seedRange strict wide len) ∧
      (t.eng.key ≠ s.eng.key →
        (∃ b, i = .seedKey b) ∨ (∃ b, i = .seedInt b) ∨ (∃ strict wide len, i = .seedRange strict wide len) ∨
          i = .seedSeq ∨ i = .load) ∧
      (t.eng.blk ≠ s.eng.blk → i = .next ∨ i = .discard ∨ i = .load) ∧
      (t.eng.ctr ≠ s.eng.ctr ∨ t.eng.cursor ≠ s.eng.cursor → i ≠ .nop ∧ i ≠ .clrst ∧ i ≠ .prfApply)

/-- The engine never increments the base part: NEXT and DISCARD leave high_CtrBits(ST.CTR) unchanged, and only SEED.*,
RESTART and LOAD change it (R278, I2 of R34). -/
def Obligations.BasePartKept : Prop :=
  ∀ (i : Instr) (s t : State), exec i s = .next t →
    highPart s.cfg.ctrBits (ctrSeq s.cfg t.eng) ≠ highPart s.cfg.ctrBits (ctrSeq s.cfg s.eng) →
    (∃ b, i = .seedKey b) ∨ (∃ b, i = .seedInt b) ∨ (∃ strict wide len, i = .seedRange strict wide len) ∨
      i = .seedSeq ∨ i = .restart ∨ i = .load

/-! ### NOP and CLRST -/

/-- NOP completes and changes STATUS and PEND only; for its own word STATUS then reads CODE, DETAIL and LASTOP 0
(R273). -/
def Obligations.NopCompletes : Prop :=
  ∀ (s : State) (p : Pending), s.pend = some p →
    exec .nop s = .next { s with
      pend := none
      status := { dropped := s.status.dropped, code := 0x00, detail := 0x00, lastop := opField p.cmd } } ∧
    (p.cmd = 0x00000000 → opField p.cmd = 0x00)

/-- CLRST clears DROPPED in its acceptance step; a CMD write dropped while it is in flight sets DROPPED again, and its
completion leaves DROPPED as it is and writes no engine state or result register. No other word has an effect on DROPPED
at acceptance (R274). -/
def Obligations.ClrstClearsDropped : Prop :=
  (∀ s : State, s.pend = none → (regWrite 0x00 0x0F s).status.dropped = false ∧
      ∀ x : Reg, (regWrite 0x00 x (regWrite 0x00 0x0F s)).status.dropped = true) ∧
    (∀ (s : State) (p : Pending), s.pend = some p →
      exec .clrst s = .next { s with
        pend := none
        status := { dropped := s.status.dropped, code := 0x00, detail := 0x00, lastop := opField p.cmd } }) ∧
    ∀ (s : State) (cw : Reg), s.pend = none → cw ≠ 0x0F →
      (regWrite 0x00 cw s).status.dropped = s.status.dropped

/-! ### The word-sequence datapath -/

/-- The word-serial increment with carry gives the result of incr_H, failures included (R149, R150). -/
def Obligations.SerialIncrementAgrees : Prop :=
  ∀ (v h : Nat) (x : Seq v) (k : Nat), h ≤ x.length * v → incrSerial h x k = incr h x k

/-- Extraction by the three regimes is the slice of the block integer, for every width w that divides V or is a multiple
of V, and every result inside the block (R153, R154). -/
def Obligations.ExtractionRegimesAgree : Prop :=
  ∀ (v w n : Nat) (blk : Seq v), 0 < v → 0 < w → (w ∣ v ∨ v ∣ w) → n * w + w ≤ blk.length * v →
    atWords w n blk = atW w n blk

/-- Packing is the inverse of extraction at the input's width: input word i comes back as result i (R144, R153). -/
def Obligations.PackInvertsExtraction : Prop :=
  ∀ (v n u : Nat) (input : Seq u) (i : Nat), 0 < u → i < (pack v n input).consumed → (i + 1) * u ≤ n * v →
    atW u i (pack v n input).target = input.getD i 0

/-- clr_highbits_H clears the top H bits, keeps every other bit, and says whether any of the top bits was 1 (R148). -/
def Obligations.ClrHighbitsClearsAndReports : Prop :=
  ∀ (v h : Nat) (x : Seq v), h ≤ x.length * v →
    (clrHighbits h x).1.length = x.length ∧
      (∀ i, (val (clrHighbits h x).1).testBit i = (decide (i < x.length * v - h) && (val x).testBit i)) ∧
      ((clrHighbits h x).2 = true ↔ ∃ i, x.length * v - h ≤ i ∧ i < x.length * v ∧ (val x).testBit i = true)

/-- The marker field is the top CBB bits of the key's integer, and check_key rejects exactly the keys where it is not 0
(R230, R232). -/
def Obligations.MarkerFieldIsKeyTop : Prop :=
  ∀ (c : Cfg) (key : Seq c.width.bits), key.length = c.k →
    markerField c key = val key / 2 ^ (c.kbits - c.cbb) ∧ (keyRejected c key = true ↔ markerField c key ≠ 0)

/-- enc_key puts CtrBits - 1 into the field and keeps every bit outside it (R231). -/
def Obligations.EncodedKeyCarriesMarker : Prop :=
  ∀ (c : Cfg) (key : Seq c.width.bits), key.length = c.k →
    (encKey c key).length = c.k ∧ markerField c (encKey c key) = c.ctrBits - 1 ∧
      ∀ i, i < c.kbits - c.cbb → (val (encKey c key)).testBit i = (val key).testBit i

/-- Collision avoidance: configurations that differ in CtrBits encode one nominal key differently (R241). -/
def Obligations.EncodedKeysOfWindowsDiffer : Prop :=
  ∀ (c d : Cfg) (q : Quad), d.toParams = { c.toParams with ctrBits := d.ctrBits } → d.ctrBits ≠ c.ctrBits →
    hold (encKey c (seqOf c.width.bits c.k q)) ≠ hold (encKey d (seqOf d.width.bits d.k q))

/-! ### The PRF -/

/-- Known answers: the source's Philox-2×32 vector (S1), the derived Philox-4×64 one (S2), and the published zero or
all-ones vectors K4, K8, K14, K15, K17 and K20 of 95_test_vectors.md. -/
def Obligations.PrfKnownAnswers : Prop :=
  prf ⟨⟨.philox, .two, .w32, 10, 32, 64⟩, by decide⟩ [1#32] [0x243F6A88#32, 0x85A308D3#32] =
      [0x249CDC9C#32, 0x4F745808#32] ∧
    prf ⟨⟨.philox, .four, .w64, 10, 64, 64⟩, by decide⟩ [1#64, 0#64]
        [0x243F6A8885A308D3#64, 0x13198A2E03707344#64, 0xA4093822299F31D0#64, 0x082EFA98EC4E6C89#64] =
      [0xC306B6F69047B4D3#64, 0x50A141B88A52F51F#64, 0xC1255F575C5EFA40#64, 0xE9EC1AF0C5FD12E7#64] ∧
    prf Cfg.a [0#32, 0#32] [0#32, 0#32, 0#32, 0#32] = [0x6627E8D5#32, 0xE169C58D#32, 0xBC57AC4C#32, 0x9B00DBD8#32] ∧
    prf ⟨⟨.philox, .two, .w64, 10, 16, 128⟩, by decide⟩ [-1#64] [-1#64, -1#64] =
      [0x65B021D60CD8310F#64, 0x4D02F3222F86DF20#64] ∧
    prf ⟨⟨.threefry, .two, .w32, 20, 64, 2⟩, by decide⟩ [-1#32, -1#32] [-1#32, -1#32] =
      [0x1CB996FC#32, 0xBB002BE7#32] ∧
    prf ⟨⟨.threefry, .four, .w32, 20, 32, 64⟩, by decide⟩ [0#32, 0#32, 0#32, 0#32] [0#32, 0#32, 0#32, 0#32] =
      [0x9C6CA96A#32, 0xE17EAE66#32, 0xFC10ECD4#32, 0x5256A7D8#32] ∧
    prf ⟨⟨.threefry, .two, .w64, 20, 128, 64⟩, by decide⟩ [0#64, 0#64] [0#64, 0#64] =
      [0xC2B6E3A8C2C69865#64, 0x6F81ED42F350084D#64] ∧
    prf ⟨⟨.threefry, .four, .w64, 20, 256, 8⟩, by decide⟩ [-1#64, -1#64, -1#64, -1#64] [-1#64, -1#64, -1#64, -1#64] =
      [0x29C24097942BBA1B#64, 0x0371BBFB0F6F4E11#64, 0x3C231FFA33F83A1C#64, 0xCD29113FDE32D168#64]

/-- For each fixed key the PRF is a bijection on N-word sequences, in every configuration (R190). -/
def Obligations.PrfIsBijection : Prop :=
  ∀ (c : Cfg) (key : Seq c.width.bits),
    (∀ x y : Seq c.width.bits, x.length = c.n → y.length = c.n → prf c key x = prf c key y → x = y) ∧
      ∀ z : Seq c.width.bits, z.length = c.n → ∃ x : Seq c.width.bits, x.length = c.n ∧ prf c key x = z

/-- The Philox key schedule: k_0 = key, each round adds the Weyl constant, so k_r = key + r·W mod 2^V in each lane
(R196). -/
def Obligations.PhiloxKeySchedule : Prop :=
  ∀ (v : Nat) (weyl key : BitVec v), philoxLane weyl key 0 = key ∧
    ∀ r, philoxLane weyl key (r + 1) = philoxLane weyl key r + weyl ∧
      (philoxLane weyl key r).toNat = (key.toNat + r * weyl.toNat) % 2 ^ v

/-- RotL moves bit i to bit (i + s) mod V, and every table entry is a rotation in [1, V) (R200, R201). -/
def Obligations.RotationsRotate : Prop :=
  (∀ (v s : Nat) (x : BitVec v), s < v → ∀ i, i < v → (rotL x s).getLsbD ((i + s) % v) = x.getLsbD i) ∧
    ∀ (width : WordWidth) (j : Nat), j < 8 →
      (1 ≤ rotTable2 width j ∧ rotTable2 width j < width.bits) ∧
        (1 ≤ rotTable40 width j ∧ rotTable40 width j < width.bits) ∧
        (1 ≤ rotTable41 width j ∧ rotTable41 width j < width.bits)

/-- PRF.APPLY completes: BOUTn = word n of PRF(key, ctr) for n < M and 0 from there on, with the host's key as given; no
engine state, RESULT or CONSUMED is written, and nothing else but STATUS and PEND (R45, R207). -/
def Obligations.PrfApplyCompletes : Prop :=
  ∀ (s : State) (p : Pending), s.pend = some p →
    ∃ q : Quad, exec .prfApply s = .next (commit p { s with res := { s.res with bout := q } }) ∧
      ∀ n : Fin 4, (quadGet q n).toNat =
        if n.val < s.cfg.m then
          ((prf s.cfg (keyOperand s.cfg p.snap) (ctrOperand s.cfg p.snap)).getD n.val 0).toNat
        else 0

/-! ### Seeding, restart and load -/

/-- SEED.KEY completes when the key's marker field and the base's low CtrBits bits are 0: ST.KEY gets the marked key,
ST.CTR the base that B selects, ST.CURSOR is Nresult, and nothing else but STATUS and PEND changes (R234). -/
def Obligations.SeedKeyCompletes : Prop :=
  ∀ (s : State) (p : Pending) (b : Bool), s.pend = some p →
    markerField s.cfg (keyOperand s.cfg p.snap) = 0 →
    (b = true → val (ctrOperand s.cfg p.snap) % 2 ^ s.cfg.ctrBits = 0) →
    exec (.seedKey b) s = .next (commit p { s with
      eng := { s.eng with
        key := hold (encKey s.cfg (keyOperand s.cfg p.snap))
        ctr := if b then hold (ctrOperand s.cfg p.snap) else ⟨0, 0, 0, 0⟩
        cursor := BitVec.ofNat 9 s.cfg.nresult } })

/-- SEED.INT completes when ARG fits KBITS, its marker field is 0 and the base is good: the key is ARG's words (R235). -/
def Obligations.SeedIntCompletes : Prop :=
  ∀ (s : State) (p : Pending) (b : Bool), s.pend = some p →
    p.snap.arg.toNat < 2 ^ (s.cfg.kbits - s.cfg.cbb) →
    (b = true → val (ctrOperand s.cfg p.snap) % 2 ^ s.cfg.ctrBits = 0) →
    exec (.seedInt b) s = .next (commit p { s with
      eng := { s.eng with
        key := hold (encKey s.cfg (wordsOf s.cfg.width.bits s.cfg.k p.snap.arg.toNat))
        ctr := if b then hold (ctrOperand s.cfg p.snap) else ⟨0, 0, 0, 0⟩
        cursor := BitVec.ofNat 9 s.cfg.nresult } })

/-- What the direct-value seeds reject, and in which order: RANGE_ERROR(0x01), then KEY_RANGE_ERROR(0x01), then
KEY_RANGE_ERROR(0x02), CODE and DETAIL as numbers; STATUS and PEND alone are written (R232, R233, R234, R235, R307). -/
def Obligations.DirectSeedsReject : Prop :=
  ∀ (s : State) (p : Pending) (b : Bool), s.pend = some p →
    let badBase := b = true ∧ val (ctrOperand s.cfg p.snap) % 2 ^ s.cfg.ctrBits ≠ 0
    let key := keyOperand s.cfg p.snap
    let arg := p.snap.arg.toNat
    (markerField s.cfg key ≠ 0 → exec (.seedKey b) s = .next (endsWith p 0x02 0x01 s)) ∧
      (markerField s.cfg key = 0 → badBase → exec (.seedKey b) s = .next (endsWith p 0x02 0x02 s)) ∧
      (2 ^ s.cfg.kbits ≤ arg → exec (.seedInt b) s = .next (endsWith p 0x03 0x01 s) ∧ s.cfg.kbits = 32) ∧
      (arg < 2 ^ s.cfg.kbits → 2 ^ (s.cfg.kbits - s.cfg.cbb) ≤ arg →
        exec (.seedInt b) s = .next (endsWith p 0x02 0x01 s)) ∧
      (arg < 2 ^ (s.cfg.kbits - s.cfg.cbb) → badBase → exec (.seedInt b) s = .next (endsWith p 0x02 0x02 s))

/-- SEED.RANGE completes for L up to 8 unless it is strict and the consumed input does not fit: it consumes
min(L, ⌈KBITS/Uw⌉) input words of Uw bits, packs them, marks the key, zeroes the counter and reports the position
(R144, R236). -/
def Obligations.SeedRangeCompletes : Prop :=
  ∀ (s : State) (p : Pending) (strict wide : Bool) (len : BitVec 4), s.pend = some p → len.toNat ≤ 8 →
    let u := if wide then 64 else 32
    let consumed := min len.toNat ((s.cfg.kbits + u - 1) / u)
    let input := val (inputOperand u consumed p.snap)
    (strict = true → input < 2 ^ s.cfg.kbits) →
    exec (.seedRange strict wide len) s = .next (commit p { s with
      eng := { s.eng with
        key := hold (encKey s.cfg (wordsOf s.cfg.width.bits s.cfg.k input))
        ctr := ⟨0, 0, 0, 0⟩
        cursor := BitVec.ofNat 9 s.cfg.nresult }
      res := { s.res with consumed := BitVec.ofNat 4 consumed } })

/-- SEED.RANGE rejects leftover bits when strict, which only 64-bit input words and a 32-bit key can have, with
RANGE_ERROR(0x02), and L above 8 with ILLEGAL_COMMAND(0x03), CODE and DETAIL as numbers (R117, R144, R236). -/
def Obligations.SeedRangeRejects : Prop :=
  ∀ (s : State) (p : Pending) (strict wide : Bool) (len : BitVec 4), s.pend = some p →
    let u := if wide then 64 else 32
    let consumed := min len.toNat ((s.cfg.kbits + u - 1) / u)
    let input := val (inputOperand u consumed p.snap)
    (8 < len.toNat → exec (.seedRange strict wide len) s = .next (endsWith p 0x05 0x03 s)) ∧
      (len.toNat ≤ 8 → strict = true → 2 ^ s.cfg.kbits ≤ input →
        exec (.seedRange strict wide len) s = .next (endsWith p 0x03 0x02 s) ∧
          wide = true ∧ s.cfg.kbits = 32)

/-- SEED.SEQ completes always: KBITS/32 words of 32 bits are the key, the marker is put in, the counter is zeroed
(R147, R237). -/
def Obligations.SeedSeqCompletes : Prop :=
  ∀ (s : State) (p : Pending), s.pend = some p →
    exec .seedSeq s = .next (commit p { s with
      eng := { s.eng with
        key := hold (encKey s.cfg
          (wordsOf s.cfg.width.bits s.cfg.k (val (inputOperand 32 (s.cfg.kbits / 32) p.snap))))
        ctr := ⟨0, 0, 0, 0⟩
        cursor := BitVec.ofNat 9 s.cfg.nresult }
      res := { s.res with consumed := BitVec.ofNat 4 (s.cfg.kbits / 32) } })

/-- SEED.SEQ is SEED.RANGE with U = 0, L = KBITS/32 and S = 0 (R237). -/
def Obligations.SeedSeqIsSeedRange : Prop :=
  ∀ s : State, exec .seedSeq s = exec (.seedRange false false (BitVec.ofNat 4 (s.cfg.kbits / 32))) s

/-- RESTART completes when the base's low CtrBits bits are 0: ST.CTR is the base, ST.CURSOR is Nresult, and ST.KEY and
all else but STATUS and PEND stay; another base is rejected with KEY_RANGE_ERROR(0x02) (R233, R238). -/
def Obligations.RestartCompletes : Prop :=
  ∀ (s : State) (p : Pending), s.pend = some p →
    (val (ctrOperand s.cfg p.snap) % 2 ^ s.cfg.ctrBits = 0 →
      exec .restart s = .next (commit p { s with
        eng := { s.eng with
          ctr := hold (ctrOperand s.cfg p.snap)
          cursor := BitVec.ofNat 9 s.cfg.nresult } })) ∧
      (val (ctrOperand s.cfg p.snap) % 2 ^ s.cfg.ctrBits ≠ 0 →
        exec .restart s = .next (endsWith p 0x02 0x02 s))

/-- LOAD completes for a cursor up to Nresult and a key with this configuration's marker: it installs cursor, counter and
key as given and recomputes the block when the cursor is below Nresult (R240). -/
def Obligations.LoadCompletes : Prop :=
  ∀ (s : State) (p : Pending), s.pend = some p → p.snap.arg.toNat ≤ s.cfg.nresult →
    markerField s.cfg (keyOperand s.cfg p.snap) = s.cfg.ctrBits - 1 →
    exec .load s = .next (commit p { s with
      eng := {
        key := hold (keyOperand s.cfg p.snap)
        ctr := hold (ctrOperand s.cfg p.snap)
        cursor := BitVec.ofNat 9 p.snap.arg.toNat
        blk :=
          if p.snap.arg.toNat < s.cfg.nresult then
            hold (prf s.cfg (keyOperand s.cfg p.snap) (ctrOperand s.cfg p.snap))
          else s.eng.blk } })

/-- LOAD rejects a cursor above Nresult with MALFORMED_INPUT(0x01), and then a key whose marker is not CtrBits - 1 with
MALFORMED_INPUT(0x02), CODE and DETAIL as numbers; STATUS and PEND alone are written (R240, R307). -/
def Obligations.LoadRejects : Prop :=
  ∀ (s : State) (p : Pending), s.pend = some p →
    (s.cfg.nresult < p.snap.arg.toNat → exec .load s = .next (endsWith p 0x04 0x01 s)) ∧
      (p.snap.arg.toNat ≤ s.cfg.nresult →
        markerField s.cfg (keyOperand s.cfg p.snap) ≠ s.cfg.ctrBits - 1 →
        exec .load s = .next (endsWith p 0x04 0x02 s))

/-- Serialization round trip: the state read through the views of one engine, staged and loaded into any idle block of
the same configuration, gives an engine equal to it, and the same cached block when the cursor is below Nresult, so that
every later NEXT gives the same (R239, R240, R275). -/
def Obligations.LoadOfSavedStateRestores : Prop :=
  ∀ e s : State, Inv e → s.cfg = e.cfg → s.pend = none →
    ∃ t, issue .load { s with stg := stageState e.cfg.n (serialize e) s.stg } = .next t ∧ Ok t ∧
      engineEq e.cfg t.eng e.eng = true ∧ (e.eng.cursor.toNat < e.cfg.nresult → t.eng = e.eng)

/-! ### Drawing and discarding -/

/-- NEXT in the fresh phase completes: it returns result ST.CURSOR of the cached block and moves the cursor on; counter,
key and block stay. Where the cache is coherent (I1) that is result ST.CURSOR of PRF(ST.KEY, ST.CTR) (R44, R270). -/
def Obligations.NextFreshCompletes : Prop :=
  ∀ (s : State) (p : Pending), s.pend = some p → s.eng.cursor.toNat < s.cfg.nresult →
    ∃ r : Nat, exec .next s = .next (commit p { s with
        eng := { s.eng with cursor := BitVec.ofNat 9 (s.eng.cursor.toNat + 1) }
        res := { s.res with result := hold (wordsOf 64 4 r) } }) ∧
      r = val (blkSeq s.cfg s.eng) / 2 ^ (s.eng.cursor.toNat * s.cfg.w) % 2 ^ s.cfg.w ∧
      (EngineInv s.cfg s.eng →
        r = (atW s.cfg.w s.eng.cursor.toNat (prf s.cfg (keySeq s.cfg s.eng) (ctrSeq s.cfg s.eng))).toNat)

/-- NEXT in the exhausted phase completes while the window has room: the counter moves one on, the block is recomputed,
its result 0 is returned and the cursor is 1 (R44, R270). -/
def Obligations.NextExhaustedCompletes : Prop :=
  ∀ (s : State) (p : Pending), s.pend = some p → s.eng.cursor.toNat = s.cfg.nresult →
    val (ctrSeq s.cfg s.eng) % 2 ^ s.cfg.ctrBits + 1 < 2 ^ s.cfg.ctrBits →
    let ctr := wordsOf s.cfg.width.bits s.cfg.n (val (ctrSeq s.cfg s.eng) + 1)
    let blk := prf s.cfg (keySeq s.cfg s.eng) ctr
    exec .next s = .next (commit p { s with
      eng := { key := s.eng.key, ctr := hold ctr, blk := hold blk, cursor := 1 }
      res := { s.res with result := hold (wordsOf 64 4 (val blk % 2 ^ s.cfg.w)) } })

/-- DISCARD completes while its increments stay inside the window: with t = ST.CURSOR + n, the cursor is t mod Nresult
and the counter moves t div Nresult on, except that on a block boundary past 0 the cursor is Nresult and the counter
moves one less; the block is recomputed when the counter moved and the cursor is below Nresult (R271, R272). -/
def Obligations.DiscardCompletes : Prop :=
  ∀ (s : State) (p : Pending), s.pend = some p →
    let t := s.eng.cursor.toNat + p.snap.arg.toNat
    let boundary := t % s.cfg.nresult = 0 ∧ s.cfg.nresult ≤ t
    let cursor := if boundary then s.cfg.nresult else t % s.cfg.nresult
    let k := if boundary then t / s.cfg.nresult - 1 else t / s.cfg.nresult
    let ctr := wordsOf s.cfg.width.bits s.cfg.n (val (ctrSeq s.cfg s.eng) + k)
    val (ctrSeq s.cfg s.eng) % 2 ^ s.cfg.ctrBits + k < 2 ^ s.cfg.ctrBits →
    exec .discard s = .next (commit p { s with
      eng := {
        key := s.eng.key
        ctr := hold ctr
        cursor := BitVec.ofNat 9 cursor
        blk :=
          if 0 < k ∧ cursor < s.cfg.nresult then hold (prf s.cfg (keySeq s.cfg s.eng) ctr) else s.eng.blk } })

/-- NEXT in the exhausted phase and DISCARD fail with COUNTER_SPACE_EXHAUSTED(0x00), CODE and DETAIL as numbers, exactly
when the increment would leave the window, and then write STATUS and PEND alone (R149, R270, R271, R307). -/
def Obligations.CounterSpaceExhausted : Prop :=
  ∀ (s : State) (p : Pending), s.pend = some p →
    let low := val (ctrSeq s.cfg s.eng) % 2 ^ s.cfg.ctrBits
    let t := s.eng.cursor.toNat + p.snap.arg.toNat
    let k := if t % s.cfg.nresult = 0 ∧ s.cfg.nresult ≤ t then t / s.cfg.nresult - 1 else t / s.cfg.nresult
    (s.eng.cursor.toNat = s.cfg.nresult →
        (exec .next s = .next (endsWith p 0x01 0x00 s) ↔ 2 ^ s.cfg.ctrBits ≤ low + 1)) ∧
      (exec .discard s = .next (endsWith p 0x01 0x00 s) ↔ 2 ^ s.cfg.ctrBits ≤ low + k)

/-- Discard/draw equivalence: DISCARD n succeeds exactly when n NEXTs all do, and then the end states are equal; when
they do not, DISCARD n fails and leaves the engine unchanged (R280, conflict C8). -/
def Obligations.DiscardEqualsDraws : Prop :=
  ∀ (s : State) (n : Reg), s.pend = none → Inv s →
    ∃ t, discards n s = .next t ∧ (Ok t ↔ ∃ u, draws n.toNat s = some u) ∧
      (∀ u, draws n.toNat s = some u → SameEngine s.cfg u t) ∧ (draws n.toNat s = none → t.eng = s.eng)

/-- Discard additivity: for a + b < 2^64, DISCARD a and then DISCARD b both succeed exactly when DISCARD a+b succeeds,
and then the end states are equal (R281). -/
def Obligations.DiscardAdds : Prop :=
  ∀ (s : State) (a b : Reg), s.pend = none → Inv s → a.toNat + b.toNat < 2 ^ 64 →
    ∃ t u w, discards a s = .next t ∧ discards b t = .next u ∧ discards (a + b) s = .next w ∧
      ((Ok t ∧ Ok u) ↔ Ok w) ∧ (Ok w → SameEngine s.cfg u w)

/-- The exhaustion boundary: from a base with its low CtrBits bits 0, exactly (2^CtrBits - 1)·Nresult draws succeed, and
the next one fails with COUNTER_SPACE_EXHAUSTED (R279, conflict C3). -/
def Obligations.ExhaustionBoundary : Prop :=
  ∀ (s : State) (n : Nat), s.pend = none → Inv s → s.eng.cursor.toNat = s.cfg.nresult →
    lowPart s.cfg.ctrBits (ctrSeq s.cfg s.eng) = 0 →
    ((∃ u, draws n s = some u) ↔ n ≤ (2 ^ s.cfg.ctrBits - 1) * s.cfg.nresult) ∧
      ∀ u, draws ((2 ^ s.cfg.ctrBits - 1) * s.cfg.nresult) s = some u →
        ∃ t, issue .next u = .next t ∧ t.status.code = 0x01 ∧ t.status.detail = 0x00 ∧ t.eng = u.eng

/-- The output stream: after a seed or RESTART with base b, the j-th NEXT returns
at_w(j mod Nresult, PRF(ST.KEY, words_N(val(b) + 1 + j div Nresult))) while j < (2^CtrBits - 1)·Nresult (R277). -/
def Obligations.OutputStream : Prop :=
  ∀ (s u : State) (j : Nat), s.pend = none → Inv s → s.eng.cursor.toNat = s.cfg.nresult →
    lowPart s.cfg.ctrBits (ctrSeq s.cfg s.eng) = 0 → draws j s = some u →
    j < (2 ^ s.cfg.ctrBits - 1) * s.cfg.nresult →
    ∃ t, issue .next u = .next t ∧ Ok t ∧
      t.res.result = resultRegs (streamResult s.cfg (keySeq s.cfg s.eng) (ctrSeq s.cfg s.eng) j)
end

