-- ==== Sys2Proof/Laws/Traits.lean ====
section
/-! SUPPORT. What the word-sequence functions do: the integer of a sequence and the words of an integer are inverse, and
the groups of registers hold sequences. -/
namespace Sys2Proof.Machine

@[simp] theorem val_nil {v : Nat} : val ([] : Seq v) = 0 := rfl

@[simp] theorem val_cons {v : Nat} (x : BitVec v) (xs : Seq v) : val (x :: xs) = x.toNat + 2 ^ v * val xs := rfl

@[simp] theorem wordsOf_length (v n a : Nat) : (wordsOf v n a).length = n := by
  induction n generalizing a with
  | zero => rfl
  | succ n ih => simp [wordsOf, ih]

theorem pow_succ_mul (n v : Nat) : 2 ^ ((n + 1) * v) = 2 ^ v * 2 ^ (n * v) := by
  rw [← pow_add]; congr 1; ring

theorem val_lt {v : Nat} (x : Seq v) : val x < 2 ^ (x.length * v) := by
  induction x with
  | nil => simp
  | cons x xs ih =>
    rw [List.length_cons, pow_succ_mul, val_cons]
    have hx := x.isLt
    have : 2 ^ v * (val xs + 1) ≤ 2 ^ v * 2 ^ (xs.length * v) := Nat.mul_le_mul_left _ ih
    rw [Nat.mul_add] at this
    omega

theorem val_wordsOf (v n a : Nat) : val (wordsOf v n a) = a % 2 ^ (n * v) := by
  induction n generalizing a with
  | zero => simp [wordsOf, Nat.mod_one]
  | succ n ih =>
    rw [wordsOf, val_cons, ih, pow_succ_mul, Nat.mod_mul, BitVec.toNat_ofNat]

theorem wordsOf_val {v : Nat} (x : Seq v) : wordsOf v x.length (val x) = x := by
  induction x with
  | nil => rfl
  | cons x xs ih =>
    have hx := x.isLt
    have h1 : (x.toNat + 2 ^ v * val xs) / 2 ^ v = val xs := by
      rw [Nat.add_mul_div_left _ _ (Nat.two_pow_pos v), Nat.div_eq_of_lt hx, Nat.zero_add]
    rw [List.length_cons, wordsOf, val_cons, h1, ih]
    congr 1
    apply BitVec.eq_of_toNat_eq
    rw [BitVec.toNat_ofNat, Nat.add_mul_mod_self_left, Nat.mod_eq_of_lt hx]

theorem wordsOf_val_of_length {v n : Nat} {x : Seq v} (h : x.length = n) : wordsOf v n (val x) = x := by
  subst h; exact wordsOf_val x

theorem val_inj {v : Nat} {x y : Seq v} (hl : x.length = y.length) (h : val x = val y) : x = y := by
  rw [← wordsOf_val x, ← wordsOf_val y, hl, h]

theorem wordsOf_congr {v n a b : Nat} (h : a % 2 ^ (n * v) = b % 2 ^ (n * v)) : wordsOf v n a = wordsOf v n b :=
  val_inj (by simp) (by rw [val_wordsOf, val_wordsOf, h])

theorem val_append {v : Nat} (x y : Seq v) : val (x ++ y) = val x + 2 ^ (x.length * v) * val y := by
  induction x with
  | nil => simp
  | cons x xs ih => simp only [List.cons_append, val_cons, ih, List.length_cons, pow_succ_mul]; ring

theorem val_makeZero (v n : Nat) : val (makeZero v n) = 0 := by
  induction n with
  | zero => rfl
  | succ n ih =>
    have h : makeZero v (n + 1) = 0 :: makeZero v n := rfl
    rw [h, val_cons, ih]; simp

@[simp] theorem makeZero_length (v n : Nat) : (makeZero v n).length = n := by simp [makeZero]

/-- The words of a sequence from word i on are the quotient by 2^(i·V). -/
theorem val_drop {v : Nat} (i : Nat) (x : Seq v) : val (x.drop i) = val x / 2 ^ (i * v) := by
  induction i generalizing x with
  | zero => simp
  | succ i ih =>
    cases x with
    | nil => simp
    | cons x xs =>
      have hx := x.isLt
      rw [List.drop_succ_cons, ih, pow_succ_mul, ← Nat.div_div_eq_div_mul, val_cons,
        Nat.add_mul_div_left _ _ (Nat.two_pow_pos v), Nat.div_eq_of_lt hx, Nat.zero_add]

/-- The first i words of a sequence are the remainder by 2^(i·V). -/
theorem val_take {v : Nat} (i : Nat) (x : Seq v) : val (x.take i) = val x % 2 ^ (i * v) := by
  induction i generalizing x with
  | zero => simp [Nat.mod_one]
  | succ i ih =>
    cases x with
    | nil => simp
    | cons x xs =>
      have hx := x.isLt
      rw [List.take_succ_cons, val_cons, ih, val_cons, pow_succ_mul, Nat.mod_mul,
        Nat.add_mul_mod_self_left, Nat.mod_eq_of_lt hx, Nat.add_mul_div_left _ _ (Nat.two_pow_pos v),
        Nat.div_eq_of_lt hx, Nat.zero_add]

/-- Word i of a sequence, 0 past its end, as a slice of its integer. -/
theorem toNat_getD {v : Nat} (x : Seq v) (i : Nat) : (x.getD i 0).toNat = val x / 2 ^ (i * v) % 2 ^ v := by
  rw [← val_drop]
  induction i generalizing x with
  | zero =>
    cases x with
    | nil => simp
    | cons x xs => simp [Nat.mod_eq_of_lt x.isLt]
  | succ i ih =>
    cases x with
    | nil => simp
    | cons x xs => simpa using ih xs

/-- incr, as an if: what it gives, and when it overflows (R149). -/
theorem incr_eq_some_iff {v : Nat} {h : Nat} {x y : Seq v} {k : Nat} :
    incr h x k = some y ↔
      lowPart h x + k < 2 ^ h ∧ y = wordsOf v x.length (highPart h x * 2 ^ h + (lowPart h x + k)) := by
  have h2 := Nat.two_pow_pos h
  unfold incr
  split <;> rename_i hlt
  · simp only [reduceCtorEq, false_iff, not_and]; omega
  · simp only [Option.some.injEq]
    constructor
    · rintro rfl; exact ⟨by omega, rfl⟩
    · rintro ⟨_, rfl⟩; rfl

theorem incr_eq_none_iff {v : Nat} {h : Nat} {x : Seq v} {k : Nat} :
    incr h x k = none ↔ 2 ^ h ≤ lowPart h x + k := by
  have h2 := Nat.two_pow_pos h
  unfold incr
  split <;> simp <;> omega

theorem high_low {v : Nat} (h : Nat) (x : Seq v) : highPart h x * 2 ^ h + lowPart h x = val x := by
  unfold highPart lowPart; rw [Nat.mul_comm]; exact Nat.div_add_mod _ _

/-- The carry loop adds: the words and the carry out are the sum (R150). -/
theorem addCarry_sum {v : Nat} (x : Seq v) (k : Nat) :
    val (addCarry x k).1 + 2 ^ (x.length * v) * (addCarry x k).2 = val x + k := by
  induction x generalizing k with
  | nil => simp [addCarry]
  | cons x xs ih =>
    have := ih ((x.toNat + k) / 2 ^ v)
    have hm := Nat.mod_add_div (x.toNat + k) (2 ^ v)
    simp only [addCarry, val_cons, BitVec.toNat_ofNat, List.length_cons, pow_succ_mul]
    calc _ = (x.toNat + k) % 2 ^ v + 2 ^ v * (val (addCarry xs ((x.toNat + k) / 2 ^ v)).1
              + 2 ^ (xs.length * v) * (addCarry xs ((x.toNat + k) / 2 ^ v)).2) := by ring
      _ = (x.toNat + k) % 2 ^ v + 2 ^ v * (val xs + (x.toNat + k) / 2 ^ v) := by rw [this]
      _ = ((x.toNat + k) % 2 ^ v + 2 ^ v * ((x.toNat + k) / 2 ^ v)) + 2 ^ v * val xs := by ring
      _ = _ := by rw [hm]; ring

@[simp] theorem addCarry_length {v : Nat} (x : Seq v) (k : Nat) : (addCarry x k).1.length = x.length := by
  induction x generalizing k with
  | nil => rfl
  | cons x xs ih => simp [addCarry, ih]

theorem seqOf_length {v n : Nat} (h : n ≤ 4) (q : Quad) : (seqOf v n q).length = n := by
  simp [seqOf, quadRegs]; omega

/-- A sequence of at most four words of at most 64 bits comes back from the group that holds it. -/
theorem seqOf_hold {v n : Nat} {x : Seq v} (hn : n ≤ 4) (hv : v ≤ 64) (hx : x.length = n) :
    seqOf v n (hold x) = x := by
  have back (w : BitVec v) : (w.setWidth 64).setWidth v = w := by
    apply BitVec.eq_of_toNat_eq
    have h1 := w.isLt
    have h2 : 2 ^ v ≤ 2 ^ 64 := Nat.pow_le_pow_right (by omega) hv
    simp only [BitVec.toNat_setWidth]
    rw [Nat.mod_eq_of_lt (a := w.toNat) (by omega), Nat.mod_eq_of_lt h1]
  subst hx
  match x, hn with
  | [], _ => rfl
  | [a], _ => simp [seqOf, hold, quadOf, quadRegs, back]
  | [a, b], _ => simp [seqOf, hold, quadOf, quadRegs, back]
  | [a, b, c], _ => simp [seqOf, hold, quadOf, quadRegs, back]
  | [a, b, c, d], _ => simp [seqOf, hold, quadOf, quadRegs, back]

theorem hold_inj {v : Nat} {x y : Seq v} (hv : v ≤ 64) (hx : x.length ≤ 4) (hl : x.length = y.length)
    (h : hold x = hold y) : x = y := by
  rw [← seqOf_hold hx hv rfl, ← seqOf_hold (hl ▸ hx) hv hl.symm, h]

/-- Register n of the group that holds a sequence is word n, 0 past the end (R36). -/
theorem quadGet_hold {v : Nat} (x : Seq v) (hv : v ≤ 64) (n : Fin 4) :
    (quadGet (hold x) n).toNat = (x.getD n.val 0).toNat := by
  have wide (b : BitVec v) : (BitVec.setWidth 64 b).toNat = b.toNat := by
    have h1 := b.isLt
    have h2 : 2 ^ v ≤ 2 ^ 64 := Nat.pow_le_pow_right (by omega) hv
    simp only [BitVec.toNat_setWidth]
    rw [Nat.mod_eq_of_lt (by omega)]
  have h : quadGet (hold x) n = (x.map (BitVec.setWidth 64)).getD n.val 0 := by fin_cases n <;> rfl
  rw [h, List.getD_eq_getElem?_getD, List.getD_eq_getElem?_getD, List.getElem?_map]
  cases x[n.val]? with
  | none => simp
  | some a => simp only [Option.map_some, Option.getD_some, wide]

@[simp] theorem quadGet_quadSet (q : Quad) (n m : Fin 4) (r : Reg) :
    quadGet (quadSet q n r) m = if m = n then r else quadGet q m := by
  fin_cases n <;> fin_cases m <;> rfl

@[simp] theorem octGet_octSet (o : Oct) (n m : Fin 8) (r : Reg) :
    octGet (octSet o n r) m = if m = n then r else octGet o m := by
  fin_cases n <;> fin_cases m <;> rfl

/-- The four registers of a 256-bit result are its four 64-bit words (R44). -/
theorem quadRegs_hold_four (a : Nat) : quadRegs (hold (wordsOf 64 4 a)) = wordsOf 64 4 a := by
  simp [hold, wordsOf, quadOf, quadRegs]

theorem lowPart_lt {v : Nat} (h : Nat) (x : Seq v) : lowPart h x < 2 ^ h := Nat.mod_lt _ (Nat.two_pow_pos h)

/-- Everything an increment inside a sequence's low h bits does: it adds to the low part, keeps the high part and the
number of words, and stays below 2^h (R149). -/
theorem incr_spec {v h : Nat} {x y : Seq v} {k : Nat} (hh : h ≤ x.length * v) (hxy : incr h x k = some y) :
    lowPart h y = lowPart h x + k ∧ highPart h y = highPart h x ∧ y.length = x.length ∧
      lowPart h x + k < 2 ^ h := by
  obtain ⟨h1, h2⟩ := incr_eq_some_iff.mp hxy
  have hv := val_lt x
  obtain ⟨q, hq⟩ : 2 ^ h ∣ 2 ^ (x.length * v) := Nat.pow_dvd_pow _ hh
  have hhi : highPart h x < q := by
    unfold highPart; apply Nat.div_lt_of_lt_mul; rw [← hq]; exact hv
  have hval : val y = highPart h x * 2 ^ h + (lowPart h x + k) := by
    rw [h2, val_wordsOf, Nat.mod_eq_of_lt]
    have : (highPart h x + 1) * 2 ^ h ≤ q * 2 ^ h := Nat.mul_le_mul_right _ hhi
    rw [hq, Nat.mul_comm _ q]; rw [Nat.add_mul] at this; omega
  refine ⟨?_, ?_, by rw [h2]; simp, h1⟩
  · rw [show lowPart h y = val y % 2 ^ h from rfl, hval, Nat.mul_comm, Nat.mul_add_mod, Nat.mod_eq_of_lt h1]
  · rw [show highPart h y = val y / 2 ^ h from rfl, hval, Nat.mul_comm, Nat.mul_add_div (Nat.two_pow_pos _),
      Nat.div_eq_of_lt h1, Nat.add_zero]

/-- The integer of a sequence whose last word is replaced. -/
theorem val_modify_last {v : Nat} (f : BitVec v → BitVec v) (n : Nat) (x : Seq v) (h : x.length = n + 1) :
    val (x.modify n f) = val (x.take n) + 2 ^ (n * v) * (f (x.getD n 0)).toNat := by
  induction n generalizing x with
  | zero =>
    match x, h with
    | [a], _ => simp
  | succ n ih =>
    match x, h with
    | a :: xs, h =>
      have := ih xs (by simpa using h)
      simp only [List.modify_succ_cons, val_cons, List.take_succ_cons, List.getD_cons_succ, this, pow_succ_mul]
      ring

end Sys2Proof.Machine
end

