-- ==== Sys2Proof/Laws/Config.lean ====
section
/-! SUPPORT. The arithmetic of the configurations (R7 to R15) and the shape of the PRF's output (R190). -/
namespace Sys2Proof

namespace Cfg

theorem n_cases (c : Cfg) : c.n = 2 ∨ c.n = 4 := by
  unfold Params.n; cases c.count <;> simp [WordCount.toNat]

theorem v_cases (c : Cfg) : c.width.bits = 32 ∨ c.width.bits = 64 := by
  cases c.width <;> simp [WordWidth.bits]

theorem n_le (c : Cfg) : c.n ≤ 4 := by rcases c.n_cases with h | h <;> omega

theorem m_eq (c : Cfg) : c.m = c.n := rfl

theorem v_le (c : Cfg) : c.width.bits ≤ 64 := by rcases c.v_cases with h | h <;> omega

theorem v_pos (c : Cfg) : 32 ≤ c.width.bits := by rcases c.v_cases with h | h <;> omega

theorem k_cases (c : Cfg) : c.k = 1 ∨ c.k = 2 ∨ c.k = 4 := by
  unfold Params.k
  rcases c.n_cases with h | h <;> rw [h] <;> cases c.prf <;> simp

theorem k_pos (c : Cfg) : 1 ≤ c.k := by rcases c.k_cases with h | h | h <;> omega

theorem k_le (c : Cfg) : c.k ≤ 4 := by rcases c.k_cases with h | h | h <;> omega

/-- Nbits is 2^CBB, with CBB from 6 to 8 (R15). -/
theorem cbb_spec (c : Cfg) : c.nbits = 2 ^ c.cbb ∧ 6 ≤ c.cbb ∧ c.cbb ≤ 8 := by
  unfold Params.cbb Params.nbits Params.v
  rcases c.n_cases with h | h <;> rcases c.v_cases with h' | h' <;> rw [h, h'] <;> decide

theorem admitted_rounds (c : Cfg) : 1 ≤ c.rounds ∧ c.rounds ≤ c.maxRounds := by
  have h := c.ok
  simp only [Params.admitted, Bool.and_eq_true, decide_eq_true_eq] at h
  exact h.1.1

theorem admitted_w (c : Cfg) : c.w ∈ [1, 2, 4, 8, 16, 32, 64, 128, 256] ∧ c.w ≤ c.m * c.v := by
  have h := c.ok
  simp only [Params.admitted, Bool.and_eq_true, decide_eq_true_eq] at h
  exact h.1.2

theorem ctrBits_pos (c : Cfg) : 1 ≤ c.ctrBits := by
  have h := c.ok
  simp only [Params.admitted, Bool.and_eq_true, decide_eq_true_eq] at h
  exact h.2.1

theorem ctrBits_le (c : Cfg) : c.ctrBits ≤ c.n * c.width.bits := by
  have h := c.ok
  simp only [Params.admitted, Bool.and_eq_true, decide_eq_true_eq] at h
  exact h.2.2

/-- CtrBits - 1 fits the marker field (R230). -/
theorem ctrBits_lt (c : Cfg) : c.ctrBits - 1 < 2 ^ c.cbb := by
  have := c.ctrBits_le
  have h := c.cbb_spec.1
  have := c.ctrBits_pos
  unfold Params.nbits at h
  have : c.n * c.v = c.n * c.width.bits := rfl
  omega

/-- w divides M·V, and Nresult is 1 to 256 (R13, R15). -/
theorem nresult_spec (c : Cfg) : c.nresult * c.w = c.m * c.width.bits ∧ 1 ≤ c.nresult ∧ c.nresult ≤ 256 := by
  obtain ⟨h1, h2⟩ := c.admitted_w
  have hm : c.m = c.n := rfl
  unfold Params.v at h2
  unfold Params.nresult Params.v
  rw [hm] at h2 ⊢
  generalize c.w = w at h1 h2 ⊢
  rcases c.n_cases with h | h <;> rcases c.v_cases with h' | h' <;> rw [h, h'] at h2 ⊢ <;>
    simp only [List.mem_cons, List.not_mem_nil, or_false] at h1 <;>
    rcases h1 with h1 | h1 | h1 | h1 | h1 | h1 | h1 | h1 | h1 <;> subst h1 <;> first | decide | omega

theorem kbits_eq (c : Cfg) : c.kbits = (c.k - 1) * c.width.bits + c.width.bits := by
  have := c.k_pos
  obtain ⟨j, hj⟩ : ∃ j, c.k = j + 1 := ⟨c.k - 1, by omega⟩
  show c.k * c.width.bits = _
  rw [hj, Nat.add_sub_cancel, Nat.succ_mul]

theorem cbb_le (c : Cfg) : c.cbb ≤ c.width.bits := by
  have := c.cbb_spec
  have := c.v_pos
  omega

/-- SEED.SEQ's KBITS/32 words are at most eight and just fill the key (R237). -/
theorem seedSeq_words (c : Cfg) :
    c.kbits / 32 ≤ 8 ∧ (c.k * c.width.bits + 32 - 1) / 32 = c.kbits / 32 := by
  have hk : c.k * c.width.bits = c.kbits := rfl
  rcases c.k_cases with h | h | h <;> rcases c.v_cases with h' | h' <;> rw [h, h'] at hk <;>
    rw [← hk, h, h'] <;> omega

theorem nresult_pos (c : Cfg) : 1 ≤ c.nresult := c.nresult_spec.2.1

theorem nresult_le (c : Cfg) : c.nresult ≤ 256 := c.nresult_spec.2.2

theorem w_pos (c : Cfg) : 1 ≤ c.w := by
  have h := c.admitted_w.1
  simp only [List.mem_cons, List.not_mem_nil, or_false] at h; omega

theorem w_le (c : Cfg) : c.w ≤ 256 := by
  have h := c.admitted_w.1
  simp only [List.mem_cons, List.not_mem_nil, or_false] at h; omega

theorem cursor_toNat (c : Cfg) : (BitVec.ofNat 9 c.nresult).toNat = c.nresult := by
  have := c.nresult_le
  rw [BitVec.toNat_ofNat]; exact Nat.mod_eq_of_lt (by omega)

/-- A position up to Nresult fits ST.CURSOR's 9 bits (R33). -/
theorem toNat_cursor (c : Cfg) (x : Nat) (h : x ≤ c.nresult) : (BitVec.ofNat 9 x).toNat = x := by
  have := c.nresult_le
  rw [BitVec.toNat_ofNat]; exact Nat.mod_eq_of_lt (by omega)

end Cfg

namespace Machine

/-- The PRF gives M = N words (R190). -/
theorem prf_length (c : Cfg) (key ctr : Seq c.width.bits) : (prf c key ctr).length = c.n := by
  unfold prf Params.n
  cases c.prf <;> cases c.count <;> rfl

/-- A block held in the four registers reads back (R32, R36). -/
theorem seqOf_hold_prf (c : Cfg) (key ctr : Seq c.width.bits) :
    seqOf c.width.bits c.m (hold (prf c key ctr)) = prf c key ctr :=
  seqOf_hold c.n_le c.v_le (prf_length c key ctr)

end Machine

end Sys2Proof
end

