-- ==== Sys2Proof/Laws/State.lean ====
section
/-! SUPPORT. One lemma per field per update of the state, each true by rfl, so that no later proof unfolds an update. -/
namespace Sys2Proof.Machine

/-! ### finish (R303, R304) -/

@[simp] theorem finish_cfg (p : Pending) (code detail : BitVec 8) (s : State) : (finish p code detail s).cfg = s.cfg := rfl
@[simp] theorem finish_eng (p : Pending) (code detail : BitVec 8) (s : State) : (finish p code detail s).eng = s.eng := rfl
@[simp] theorem finish_stg (p : Pending) (code detail : BitVec 8) (s : State) : (finish p code detail s).stg = s.stg := rfl
@[simp] theorem finish_res (p : Pending) (code detail : BitVec 8) (s : State) : (finish p code detail s).res = s.res := rfl
@[simp] theorem finish_cmd (p : Pending) (code detail : BitVec 8) (s : State) : (finish p code detail s).cmd = s.cmd := rfl
@[simp] theorem finish_pend (p : Pending) (code detail : BitVec 8) (s : State) : (finish p code detail s).pend = none := rfl
@[simp] theorem finish_inputs (p : Pending) (code detail : BitVec 8) (s : State) : (finish p code detail s).inputs = s.inputs := rfl
@[simp] theorem finish_reads (p : Pending) (code detail : BitVec 8) (s : State) : (finish p code detail s).reads = s.reads := rfl
@[simp] theorem finish_dropped (p : Pending) (code detail : BitVec 8) (s : State) : (finish p code detail s).status.dropped = s.status.dropped := rfl
@[simp] theorem finish_code (p : Pending) (code detail : BitVec 8) (s : State) : (finish p code detail s).status.code = code := rfl
@[simp] theorem finish_detail (p : Pending) (code detail : BitVec 8) (s : State) : (finish p code detail s).status.detail = detail := rfl
@[simp] theorem finish_lastop (p : Pending) (code detail : BitVec 8) (s : State) : (finish p code detail s).status.lastop = opField p.cmd := rfl

/-! ### commit (R304) -/

@[simp] theorem commit_cfg (p : Pending) (s : State) : (commit p s).cfg = s.cfg := rfl
@[simp] theorem commit_eng (p : Pending) (s : State) : (commit p s).eng = s.eng := rfl
@[simp] theorem commit_stg (p : Pending) (s : State) : (commit p s).stg = s.stg := rfl
@[simp] theorem commit_res (p : Pending) (s : State) : (commit p s).res = s.res := rfl
@[simp] theorem commit_cmd (p : Pending) (s : State) : (commit p s).cmd = s.cmd := rfl
@[simp] theorem commit_pend (p : Pending) (s : State) : (commit p s).pend = none := rfl
@[simp] theorem commit_inputs (p : Pending) (s : State) : (commit p s).inputs = s.inputs := rfl
@[simp] theorem commit_reads (p : Pending) (s : State) : (commit p s).reads = s.reads := rfl
@[simp] theorem commit_dropped (p : Pending) (s : State) : (commit p s).status.dropped = s.status.dropped := rfl
@[simp] theorem commit_code (p : Pending) (s : State) : (commit p s).status.code = 0x00 := rfl
@[simp] theorem commit_detail (p : Pending) (s : State) : (commit p s).status.detail = 0x00 := rfl
@[simp] theorem commit_lastop (p : Pending) (s : State) : (commit p s).status.lastop = opField p.cmd := rfl

/-! ### failWith (R303) -/

@[simp] theorem failWith_cfg (p : Pending) (e : CmdError) (s : State) : (failWith p e s).cfg = s.cfg := rfl
@[simp] theorem failWith_eng (p : Pending) (e : CmdError) (s : State) : (failWith p e s).eng = s.eng := rfl
@[simp] theorem failWith_stg (p : Pending) (e : CmdError) (s : State) : (failWith p e s).stg = s.stg := rfl
@[simp] theorem failWith_res (p : Pending) (e : CmdError) (s : State) : (failWith p e s).res = s.res := rfl
@[simp] theorem failWith_cmd (p : Pending) (e : CmdError) (s : State) : (failWith p e s).cmd = s.cmd := rfl
@[simp] theorem failWith_pend (p : Pending) (e : CmdError) (s : State) : (failWith p e s).pend = none := rfl
@[simp] theorem failWith_inputs (p : Pending) (e : CmdError) (s : State) : (failWith p e s).inputs = s.inputs := rfl
@[simp] theorem failWith_reads (p : Pending) (e : CmdError) (s : State) : (failWith p e s).reads = s.reads := rfl
@[simp] theorem failWith_dropped (p : Pending) (e : CmdError) (s : State) : (failWith p e s).status.dropped = s.status.dropped := rfl
@[simp] theorem failWith_code (p : Pending) (e : CmdError) (s : State) : (failWith p e s).status.code = errorCode e := rfl
@[simp] theorem failWith_detail (p : Pending) (e : CmdError) (s : State) : (failWith p e s).status.detail = errorDetail e := rfl
@[simp] theorem failWith_lastop (p : Pending) (e : CmdError) (s : State) : (failWith p e s).status.lastop = opField p.cmd := rfl

/-! ### accept (R37, R343) -/

@[simp] theorem accept_cfg (cw : Reg) (s : State) : (accept cw s).cfg = s.cfg := rfl
@[simp] theorem accept_eng (cw : Reg) (s : State) : (accept cw s).eng = s.eng := rfl
@[simp] theorem accept_stg (cw : Reg) (s : State) : (accept cw s).stg = s.stg := rfl
@[simp] theorem accept_res (cw : Reg) (s : State) : (accept cw s).res = s.res := rfl
@[simp] theorem accept_cmd (cw : Reg) (s : State) : (accept cw s).cmd = cw := rfl
@[simp] theorem accept_pend (cw : Reg) (s : State) : (accept cw s).pend = some { cmd := cw, snap := s.stg } := rfl
@[simp] theorem accept_inputs (cw : Reg) (s : State) : (accept cw s).inputs = s.inputs := rfl
@[simp] theorem accept_reads (cw : Reg) (s : State) : (accept cw s).reads = s.reads := rfl
@[simp] theorem accept_dropped (cw : Reg) (s : State) : (accept cw s).status.dropped = droppedAfterAccept cw s.status.dropped := rfl
@[simp] theorem accept_code (cw : Reg) (s : State) : (accept cw s).status.code = s.status.code := rfl
@[simp] theorem accept_detail (cw : Reg) (s : State) : (accept cw s).status.detail = s.status.detail := rfl
@[simp] theorem accept_lastop (cw : Reg) (s : State) : (accept cw s).status.lastop = s.status.lastop := rfl

/-! ### hostRead (R343) -/

@[simp] theorem hostRead_cfg (i : Index) (s : State) : (hostRead i s).cfg = s.cfg := rfl
@[simp] theorem hostRead_eng (i : Index) (s : State) : (hostRead i s).eng = s.eng := rfl
@[simp] theorem hostRead_stg (i : Index) (s : State) : (hostRead i s).stg = s.stg := rfl
@[simp] theorem hostRead_res (i : Index) (s : State) : (hostRead i s).res = s.res := rfl
@[simp] theorem hostRead_cmd (i : Index) (s : State) : (hostRead i s).cmd = s.cmd := rfl
@[simp] theorem hostRead_pend (i : Index) (s : State) : (hostRead i s).pend = s.pend := rfl
@[simp] theorem hostRead_inputs (i : Index) (s : State) : (hostRead i s).inputs = s.inputs := rfl
@[simp] theorem hostRead_reads (i : Index) (s : State) : (hostRead i s).reads = (i, regRead s i) :: s.reads := rfl
@[simp] theorem hostRead_dropped (i : Index) (s : State) : (hostRead i s).status.dropped = s.status.dropped := rfl
@[simp] theorem hostRead_code (i : Index) (s : State) : (hostRead i s).status.code = s.status.code := rfl
@[simp] theorem hostRead_detail (i : Index) (s : State) : (hostRead i s).status.detail = s.status.detail := rfl
@[simp] theorem hostRead_lastop (i : Index) (s : State) : (hostRead i s).status.lastop = s.status.lastop := rfl

/-! ### resetStep (R340) -/

@[simp] theorem resetStep_cfg (s : State) : (resetStep s).cfg = s.cfg := rfl
@[simp] theorem resetStep_eng (s : State) : (resetStep s).eng = Engine.reset s.cfg := rfl
@[simp] theorem resetStep_stg (s : State) : (resetStep s).stg = { arg := 0, keyin := Quad.zero, ctrin := Quad.zero, din := Oct.zero } := rfl
@[simp] theorem resetStep_res (s : State) : (resetStep s).res = { result := Quad.zero, bout := Quad.zero, consumed := 0 } := rfl
@[simp] theorem resetStep_cmd (s : State) : (resetStep s).cmd = 0 := rfl
@[simp] theorem resetStep_pend (s : State) : (resetStep s).pend = none := rfl
@[simp] theorem resetStep_inputs (s : State) : (resetStep s).inputs = s.inputs := rfl
@[simp] theorem resetStep_reads (s : State) : (resetStep s).reads = s.reads := rfl
@[simp] theorem resetStep_dropped (s : State) : (resetStep s).status.dropped = false := rfl
@[simp] theorem resetStep_code (s : State) : (resetStep s).status.code = 0x00 := rfl
@[simp] theorem resetStep_detail (s : State) : (resetStep s).status.detail = 0x00 := rfl
@[simp] theorem resetStep_lastop (s : State) : (resetStep s).status.lastop = 0x00 := rfl

/-! ### withCommand -/

@[simp] theorem withCommand_cfg (cw : Reg) (s : State) : (withCommand cw s).cfg = s.cfg := rfl
@[simp] theorem withCommand_eng (cw : Reg) (s : State) : (withCommand cw s).eng = s.eng := rfl
@[simp] theorem withCommand_stg (cw : Reg) (s : State) : (withCommand cw s).stg = s.stg := rfl
@[simp] theorem withCommand_res (cw : Reg) (s : State) : (withCommand cw s).res = s.res := rfl
@[simp] theorem withCommand_cmd (cw : Reg) (s : State) : (withCommand cw s).cmd = cw := rfl
@[simp] theorem withCommand_pend (cw : Reg) (s : State) : (withCommand cw s).pend = some { cmd := cw, snap := s.stg } := rfl
@[simp] theorem withCommand_inputs (cw : Reg) (s : State) : (withCommand cw s).inputs = .complete :: s.inputs := rfl
@[simp] theorem withCommand_reads (cw : Reg) (s : State) : (withCommand cw s).reads = s.reads := rfl
@[simp] theorem withCommand_dropped (cw : Reg) (s : State) : (withCommand cw s).status.dropped = droppedAfterAccept cw s.status.dropped := rfl
@[simp] theorem withCommand_code (cw : Reg) (s : State) : (withCommand cw s).status.code = s.status.code := rfl
@[simp] theorem withCommand_detail (cw : Reg) (s : State) : (withCommand cw s).status.detail = s.status.detail := rfl
@[simp] theorem withCommand_lastop (cw : Reg) (s : State) : (withCommand cw s).status.lastop = s.status.lastop := rfl

/-! ### seedPacked (R236, R237) -/

@[simp] theorem seedPacked_cfg (s : State) (key : Seq s.cfg.width.bits) (consumed : Nat) : (seedPacked s key consumed).cfg = s.cfg := rfl
@[simp] theorem seedPacked_eng (s : State) (key : Seq s.cfg.width.bits) (consumed : Nat) : (seedPacked s key consumed).eng = seedEngine s.cfg key (makeZero s.cfg.width.bits s.cfg.n) s.eng := rfl
@[simp] theorem seedPacked_stg (s : State) (key : Seq s.cfg.width.bits) (consumed : Nat) : (seedPacked s key consumed).stg = s.stg := rfl
@[simp] theorem seedPacked_res (s : State) (key : Seq s.cfg.width.bits) (consumed : Nat) : (seedPacked s key consumed).res = { s.res with consumed := BitVec.ofNat 4 consumed } := rfl
@[simp] theorem seedPacked_cmd (s : State) (key : Seq s.cfg.width.bits) (consumed : Nat) : (seedPacked s key consumed).cmd = s.cmd := rfl
@[simp] theorem seedPacked_pend (s : State) (key : Seq s.cfg.width.bits) (consumed : Nat) : (seedPacked s key consumed).pend = s.pend := rfl
@[simp] theorem seedPacked_inputs (s : State) (key : Seq s.cfg.width.bits) (consumed : Nat) : (seedPacked s key consumed).inputs = s.inputs := rfl
@[simp] theorem seedPacked_reads (s : State) (key : Seq s.cfg.width.bits) (consumed : Nat) : (seedPacked s key consumed).reads = s.reads := rfl
@[simp] theorem seedPacked_dropped (s : State) (key : Seq s.cfg.width.bits) (consumed : Nat) : (seedPacked s key consumed).status.dropped = s.status.dropped := rfl
@[simp] theorem seedPacked_code (s : State) (key : Seq s.cfg.width.bits) (consumed : Nat) : (seedPacked s key consumed).status.code = s.status.code := rfl
@[simp] theorem seedPacked_detail (s : State) (key : Seq s.cfg.width.bits) (consumed : Nat) : (seedPacked s key consumed).status.detail = s.status.detail := rfl
@[simp] theorem seedPacked_lastop (s : State) (key : Seq s.cfg.width.bits) (consumed : Nat) : (seedPacked s key consumed).status.lastop = s.status.lastop := rfl

/-! ### withArg -/

@[simp] theorem withArg_cfg (x : Reg) (s : State) : (withArg x s).cfg = s.cfg := rfl
@[simp] theorem withArg_eng (x : Reg) (s : State) : (withArg x s).eng = s.eng := rfl
@[simp] theorem withArg_stg (x : Reg) (s : State) : (withArg x s).stg = { s.stg with arg := x } := rfl
@[simp] theorem withArg_res (x : Reg) (s : State) : (withArg x s).res = s.res := rfl
@[simp] theorem withArg_cmd (x : Reg) (s : State) : (withArg x s).cmd = s.cmd := rfl
@[simp] theorem withArg_pend (x : Reg) (s : State) : (withArg x s).pend = s.pend := rfl
@[simp] theorem withArg_inputs (x : Reg) (s : State) : (withArg x s).inputs = s.inputs := rfl
@[simp] theorem withArg_reads (x : Reg) (s : State) : (withArg x s).reads = s.reads := rfl
@[simp] theorem withArg_dropped (x : Reg) (s : State) : (withArg x s).status.dropped = s.status.dropped := rfl
@[simp] theorem withArg_code (x : Reg) (s : State) : (withArg x s).status.code = s.status.code := rfl
@[simp] theorem withArg_detail (x : Reg) (s : State) : (withArg x s).status.detail = s.status.detail := rfl
@[simp] theorem withArg_lastop (x : Reg) (s : State) : (withArg x s).status.lastop = s.status.lastop := rfl

/-! ### The engine's updates -/

@[simp] theorem seedEngine_key (c : Cfg) (key base : Seq c.width.bits) (e : Engine) :
    (seedEngine c key base e).key = hold (encKey c key) := rfl
@[simp] theorem seedEngine_ctr (c : Cfg) (key base : Seq c.width.bits) (e : Engine) :
    (seedEngine c key base e).ctr = hold base := rfl
@[simp] theorem seedEngine_blk (c : Cfg) (key base : Seq c.width.bits) (e : Engine) :
    (seedEngine c key base e).blk = e.blk := rfl
@[simp] theorem seedEngine_cursor (c : Cfg) (key base : Seq c.width.bits) (e : Engine) :
    (seedEngine c key base e).cursor = BitVec.ofNat 9 c.nresult := rfl

@[simp] theorem loadEngine_key (c : Cfg) (cursor : Nat) (ctr key : Seq c.width.bits) (e : Engine) :
    (loadEngine c cursor ctr key e).key = hold key := rfl
@[simp] theorem loadEngine_ctr (c : Cfg) (cursor : Nat) (ctr key : Seq c.width.bits) (e : Engine) :
    (loadEngine c cursor ctr key e).ctr = hold ctr := rfl
@[simp] theorem loadEngine_blk (c : Cfg) (cursor : Nat) (ctr key : Seq c.width.bits) (e : Engine) :
    (loadEngine c cursor ctr key e).blk = if cursor < c.nresult then hold (prf c key ctr) else e.blk := rfl
@[simp] theorem loadEngine_cursor (c : Cfg) (cursor : Nat) (ctr key : Seq c.width.bits) (e : Engine) :
    (loadEngine c cursor ctr key e).cursor = BitVec.ofNat 9 cursor := rfl

@[simp] theorem advance_key (e : Engine) :
    (advance e).key = e.key := rfl
@[simp] theorem advance_ctr (e : Engine) :
    (advance e).ctr = e.ctr := rfl
@[simp] theorem advance_blk (e : Engine) :
    (advance e).blk = e.blk := rfl
@[simp] theorem advance_cursor (e : Engine) :
    (advance e).cursor = BitVec.ofNat 9 (e.cursor.toNat + 1) := rfl

@[simp] theorem engineReset_key (c : Cfg) :
    (Engine.reset c).key = resetKey c := rfl
@[simp] theorem engineReset_ctr (c : Cfg) :
    (Engine.reset c).ctr = Quad.zero := rfl
@[simp] theorem engineReset_blk (c : Cfg) :
    (Engine.reset c).blk = Quad.zero := rfl
@[simp] theorem engineReset_cursor (c : Cfg) :
    (Engine.reset c).cursor = BitVec.ofNat 9 c.nresult := rfl

/-! ### endsWith (R303) -/

/-- A failure ends with the numbers of its error (R301, R302). -/
theorem failWith_eq_endsWith (p : Pending) (e : CmdError) (s : State) :
    failWith p e s = endsWith p (errorCode e) (errorDetail e) s := rfl

@[simp] theorem endsWith_eng (p : Pending) (code detail : BitVec 8) (s : State) : (endsWith p code detail s).eng = s.eng := rfl
@[simp] theorem endsWith_res (p : Pending) (code detail : BitVec 8) (s : State) : (endsWith p code detail s).res = s.res := rfl
@[simp] theorem endsWith_pend (p : Pending) (code detail : BitVec 8) (s : State) : (endsWith p code detail s).pend = none := rfl
@[simp] theorem endsWith_code (p : Pending) (code detail : BitVec 8) (s : State) : (endsWith p code detail s).status.code = code := rfl
@[simp] theorem endsWith_detail (p : Pending) (code detail : BitVec 8) (s : State) : (endsWith p code detail s).status.detail = detail := rfl

end Sys2Proof.Machine
end

