-- ==== Sys2Proof/Laws/Ops.lean ====
section
/-! SUPPORT. What each shared operation can do, said once: the end of a command, a write to the port, the steps. -/
namespace Sys2Proof.Machine

/-- How a command ends (R300): the block was busy, and it committed the writes of its body or failed. -/
theorem runCommand_eq_next {s t : State} {body : Staging → Except CmdError State} :
    runCommand s body = .next t ↔
      ∃ p, s.pend = some p ∧
        ((∃ u, body p.snap = .ok u ∧ t = commit p u) ∨ (∃ e, body p.snap = .error e ∧ t = failWith p e s)) := by
  unfold runCommand
  cases s.pend with
  | none => simp
  | some p =>
    cases h : body p.snap with
    | ok u => simp [h, eq_comm]
    | error e => simp [h, eq_comm]

theorem runCommand_ok {s u : State} {p : Pending} {body : Staging → Except CmdError State} (hp : s.pend = some p)
    (h : body p.snap = .ok u) : runCommand s body = .next (commit p u) := by
  simp only [runCommand, hp, h]

theorem runCommand_error {s : State} {p : Pending} {e : CmdError} {body : Staging → Except CmdError State}
    (hp : s.pend = some p) (h : body p.snap = .error e) : runCommand s body = .next (failWith p e s) := by
  simp only [runCommand, hp, h]

theorem runCommand_idle {s : State} {body : Staging → Except CmdError State} (hp : s.pend = none) :
    runCommand s body = .refused .noCommandInFlight := by
  simp only [runCommand, hp]

/-- Every error writes a pair of the table of R302. -/
theorem errorPair_mem (e : CmdError) : (errorCode e, errorDetail e) ∈ statusPairs := by
  cases e with
  | illegal d => cases d <;> decide
  | _ => decide

/-- No error has the code OK (R301). -/
theorem errorCode_ne_ok (e : CmdError) : errorCode e ≠ 0x00 := by cases e <;> simp [errorCode]

/-- A write to the port can do four things: nothing, store into a staging register, accept a command while idle, or set
DROPPED while busy (R35, R37). -/
theorem regWrite_cases (i : Index) (x : Reg) (s : State) :
    regWrite i x s = s ∨ (∃ stg, regWrite i x s = { s with stg := stg }) ∨
      (busy s = false ∧ regWrite i x s = accept x s) ∨
      (busy s = true ∧ regWrite i x s = { s with status := { s.status with dropped := true } }) := by
  unfold regWrite
  cases regName i <;> simp only [writeName, true_or]
  case cmd =>
    unfold writeCmd
    cases busy s <;> simp
  case arg => exact .inr (.inl ⟨_, rfl⟩)
  case keyin n => exact .inr (.inl ⟨_, rfl⟩)
  case ctrin n => exact .inr (.inl ⟨_, rfl⟩)
  case din n => exact .inr (.inl ⟨_, rfl⟩)

/-- Complete can do two things: run the decoded command, or fail an illegal word (R114). -/
theorem complete_eq_next {s t : State} :
    complete s = .next t ↔
      ∃ p, s.pend = some p ∧
        ((∃ i, decode p.cmd = .ok i ∧ exec i s = .next t) ∨
          (∃ e, decode p.cmd = .error e ∧ t = failWith p (.illegal e) s)) := by
  unfold complete
  cases hp : s.pend with
  | none => simp
  | some p =>
    cases h : decode p.cmd with
    | ok i => simp [h]
    | error e => simp [h, eq_comm]

/-- What one step can do (R343): with nothing asked for, complete or wait; else a read, a write, Complete or Reset. -/
theorem step_eq_next {s t : State} (h : step s = .next t) :
    (s.inputs = [] ∧ (complete s = .next t ∨ t = s)) ∨
      ∃ e rest, s.inputs = e :: rest ∧
        ((∃ i, t = hostRead i { s with inputs := rest }) ∨ (∃ i x, t = regWrite i x { s with inputs := rest }) ∨
          (e = .complete ∧ complete { s with inputs := rest } = .next t) ∨
          (e = .reset ∧ t = resetStep { s with inputs := rest })) := by
  unfold step at h
  split at h
  · rename_i hin
    refine .inl ⟨hin, ?_⟩
    unfold quiet at h
    split at h
    · exact .inl h
    · cases h; exact .inr rfl
  · rename_i e rest hin
    refine .inr ⟨e, rest, hin, ?_⟩
    cases e with
    | hostRead i => cases h; exact .inl ⟨i, rfl⟩
    | hostWrite i x => cases h; exact .inr (.inl ⟨i, x, rfl⟩)
    | busRead offset size =>
      simp only [serve, busRead] at h
      split at h
      · cases h; exact .inl ⟨_, rfl⟩
      · cases h
    | busWrite offset data =>
      simp only [serve, busWrite] at h
      split at h
      · cases h; exact .inr (.inl ⟨_, _, rfl⟩)
      · cases h
    | complete => exact .inr (.inr (.inl ⟨rfl, h⟩))
    | reset => cases h; exact .inr (.inr (.inr ⟨rfl, rfl⟩))

end Sys2Proof.Machine
end

