-- ==== Sys2Proof/Laws/Exec.lean ====
section
/-! SUPPORT. Every command is one runCommand of a body that depends on the configuration, the engine and the results
alone and stages writes to the engine and the results alone; statements about all commands go through this. -/
namespace Sys2Proof.Machine

/-- The engine and result writes a command stages, or its error, from the configuration, the engine, the results and the
snapshot. -/
def commandBody (c : Cfg) (e : Engine) (r : Results) (snap : Staging) : Instr → Except CmdError (Engine × Results)
  | .nop => .ok (e, r)
  | .seedKey b =>
    if keyRejected c (keyOperand c snap) then .error .keyRange
    else if baseRejected c (baseOperand c b snap) then .error .baseRange
    else .ok (seedEngine c (keyOperand c snap) (baseOperand c b snap) e, r)
  | .seedInt b =>
    match makeFromInt c.width.bits c.k snap.arg.toNat with
    | none => .error .intRange
    | some key =>
      if keyRejected c key then .error .keyRange
      else if baseRejected c (baseOperand c b snap) then .error .baseRange
      else .ok (seedEngine c key (baseOperand c b snap) e, r)
  | .seedRange strict wide len =>
    if 8 < len.toNat then .error (.illegal .lengthOutOfRange)
    else if strict ∧ (packedRange c wide len.toNat snap).leftover ≠ 0 then .error .leftoverRange
    else
      .ok (seedEngine c (packedRange c wide len.toNat snap).target (makeZero c.width.bits c.n) e,
        { r with consumed := BitVec.ofNat 4 (packedRange c wide len.toNat snap).consumed })
  | .seedSeq =>
    .ok (seedEngine c (makeFromSeedseq c.width.bits c.k (inputOperand 32 (c.kbits / 32) snap))
        (makeZero c.width.bits c.n) e,
      { r with consumed := BitVec.ofNat 4 (c.kbits / 32) })
  | .restart =>
    if baseRejected c (ctrOperand c snap) then .error .baseRange
    else .ok ({ e with ctr := hold (ctrOperand c snap), cursor := BitVec.ofNat 9 c.nresult }, r)
  | .load =>
    if c.nresult < snap.arg.toNat then .error .malformedCursor
    else if markerField c (keyOperand c snap) ≠ c.ctrBits - 1 then .error .malformedMarker
    else .ok (loadEngine c snap.arg.toNat (ctrOperand c snap) (keyOperand c snap) e, r)
  | .next =>
    match refill c e with
    | none => .error .counterSpaceExhausted
    | some f => .ok (advance f, { r with result := resultRegs (drawn c f) })
  | .discard =>
    match discardEngine c snap.arg.toNat e with
    | none => .error .counterSpaceExhausted
    | some f => .ok (f, r)
  | .prfApply => .ok (e, { r with bout := hold (prf c (keyOperand c snap) (ctrOperand c snap)) })
  | .clrst => .ok (e, r)

/-- A state with the staged writes of a body. -/
def staged (s : State) (x : Engine × Results) : State := { s with eng := x.1, res := x.2 }

/-- Every command is one runCommand of its body (R22). -/
theorem exec_eq (i : Instr) (s : State) :
    exec i s = runCommand s fun snap => (commandBody s.cfg s.eng s.res snap i).map (staged s) := by
  unfold exec
  cases i <;> simp only [commandBody]
  case nop => rfl
  case seedKey b =>
    simp only [execSeedKey, seedChecked]
    congr 1; funext snap
    split <;> [rfl; (split <;> rfl)]
  case seedInt b =>
    simp only [execSeedInt, seedChecked]
    congr 1; funext snap
    cases makeFromInt s.cfg.width.bits s.cfg.k snap.arg.toNat with
    | none => rfl
    | some key => dsimp only; split <;> [rfl; (split <;> rfl)]
  case seedRange strict wide len =>
    simp only [execSeedRange]
    congr 1; funext snap
    split <;> [rfl; (split <;> rfl)]
  case seedSeq => rfl
  case restart =>
    simp only [execRestart]
    congr 1; funext snap
    split <;> rfl
  case load =>
    simp only [execLoad]
    congr 1; funext snap
    split <;> [rfl; (split <;> rfl)]
  case next =>
    simp only [execNext]
    congr 1; funext snap
    cases refill s.cfg s.eng <;> rfl
  case discard =>
    simp only [execDiscard]
    congr 1; funext snap
    cases discardEngine s.cfg snap.arg.toNat s.eng <;> rfl
  case prfApply => rfl
  case clrst => rfl

/-- What the Complete step of a command can do (R300): commit the writes its body stages, or fail. -/
theorem exec_eq_next {i : Instr} {s t : State} :
    exec i s = .next t ↔
      ∃ p, s.pend = some p ∧
        ((∃ x, commandBody s.cfg s.eng s.res p.snap i = .ok x ∧ t = commit p (staged s x)) ∨
          (∃ e, commandBody s.cfg s.eng s.res p.snap i = .error e ∧ t = failWith p e s)) := by
  rw [exec_eq, runCommand_eq_next]
  refine exists_congr fun p => and_congr_right fun _ => ?_
  cases h : commandBody s.cfg s.eng s.res p.snap i with
  | ok x => simp [Except.map]
  | error e => simp [Except.map]

theorem exec_ok {i : Instr} {s : State} {p : Pending} {x : Engine × Results} (hp : s.pend = some p)
    (h : commandBody s.cfg s.eng s.res p.snap i = .ok x) : exec i s = .next (commit p (staged s x)) :=
  exec_eq_next.mpr ⟨p, hp, .inl ⟨x, h, rfl⟩⟩

theorem exec_error {i : Instr} {s : State} {p : Pending} {e : CmdError} (hp : s.pend = some p)
    (h : commandBody s.cfg s.eng s.res p.snap i = .error e) : exec i s = .next (failWith p e s) :=
  exec_eq_next.mpr ⟨p, hp, .inr ⟨e, h, rfl⟩⟩

end Sys2Proof.Machine
end

