-- ==== Sys2Proof/Laws/Draw.lean ====
section
/-! SUPPORT. What the shared operations of NEXT and DISCARD do (R270, R271, R272). -/
namespace Sys2Proof.Machine

/-- The discard arithmetic keeps the position k·Nresult + cursor, stays in the range of the cursor, and gives cursor 0
only to a discard of 0 at cursor 0 (R272). -/
theorem discardSplit_spec {nr cur n : Nat} (h0 : 0 < nr) :
    (discardSplit nr cur n).1 ≤ nr ∧ (discardSplit nr cur n).2 * nr + (discardSplit nr cur n).1 = cur + n ∧
      ((discardSplit nr cur n).1 = 0 → cur = 0 ∧ n = 0) ∧
      ((discardSplit nr cur n).2 = 0 → (discardSplit nr cur n).1 = cur + n) := by
  unfold discardSplit
  simp only []
  have h5 := Nat.div_add_mod (cur + n) nr
  have hm := Nat.mod_lt (cur + n) h0
  rw [Nat.mul_comm] at h5
  split
  · rename_i h
    obtain ⟨q, hq⟩ : ∃ q, (cur + n) / nr = q + 1 := ⟨(cur + n) / nr - 1, by omega⟩
    simp only [hq, Nat.add_sub_cancel] at *
    rw [Nat.add_mul] at h5
    refine ⟨Nat.le_refl _, by omega, by omega, ?_⟩
    rintro rfl; omega
  · rename_i h
    simp only
    refine ⟨by omega, h5, ?_, ?_⟩
    · intro hz
      have hq : (cur + n) / nr = 0 := by
        by_contra h2; exact h ⟨hz, Nat.pos_of_ne_zero h2⟩
      rw [hq, hz] at h5; omega
    · intro hz; rw [hz] at h5; omega

/-- The increment of the engine's counter (R149, R278). -/
theorem incr_ctrSeq {c : Cfg} {e : Engine} {k : Nat} {y : Seq c.width.bits}
    (h : incr c.ctrBits (ctrSeq c e) k = some y) :
    lowPart c.ctrBits y = lowPart c.ctrBits (ctrSeq c e) + k ∧
      highPart c.ctrBits y = highPart c.ctrBits (ctrSeq c e) ∧ y.length = c.n ∧
      lowPart c.ctrBits (ctrSeq c e) + k < 2 ^ c.ctrBits := by
  have hl : (ctrSeq c e).length = c.n := seqOf_length c.n_le _
  obtain ⟨h1, h2, h3, h4⟩ := incr_spec (by rw [hl]; exact c.ctrBits_le) h
  exact ⟨h1, h2, h3.trans hl, h4⟩

/-- What refill can do (R270): nothing in the fresh phase, one block further in the exhausted one. -/
theorem refill_eq_some {c : Cfg} {e f : Engine} (h : refill c e = some f) :
    (e.cursor.toNat ≠ c.nresult ∧ f = e) ∨
      (e.cursor.toNat = c.nresult ∧ ∃ ctr, incr c.ctrBits (ctrSeq c e) 1 = some ctr ∧
        f = { key := e.key, ctr := hold ctr, blk := hold (prf c (keySeq c e) ctr), cursor := 0 }) := by
  unfold refill at h
  split at h
  · rename_i hc
    split at h
    · cases h
    · rename_i ctr hx
      cases h; exact .inr ⟨hc, ctr, hx, rfl⟩
  · cases h; exact .inl ⟨‹_›, rfl⟩

/-- What DISCARD n does to the engine (R271). -/
theorem discardEngine_eq_some {c : Cfg} {n : Nat} {e f : Engine} (h : discardEngine c n e = some f) :
    ∃ ctr, incr c.ctrBits (ctrSeq c e) (discardSplit c.nresult e.cursor.toNat n).2 = some ctr ∧ f.key = e.key ∧
      f.ctr = hold ctr ∧ f.cursor = BitVec.ofNat 9 (discardSplit c.nresult e.cursor.toNat n).1 ∧
      f.blk =
        if 0 < (discardSplit c.nresult e.cursor.toNat n).2 ∧ (discardSplit c.nresult e.cursor.toNat n).1 < c.nresult then
          hold (prf c (keySeq c e) ctr)
        else e.blk := by
  unfold discardEngine at h
  simp only at h
  split at h
  · cases h
  · rename_i ctr hx
    cases h; exact ⟨ctr, hx, rfl, rfl, rfl, rfl⟩

end Sys2Proof.Machine
end

