-- ==== Sys2Proof/Laws/Marker.lean ====
section
/-! SUPPORT. What the marker functions do to the key's integer (R230, R231, R232). -/
namespace Sys2Proof.Machine

/-- A field of h bits put on top of a word whose top h bits are 0 adds to it. -/
theorem toNat_or_shift {v h m : Nat} (x : BitVec v) (hv : h ≤ v) (hx : x.toNat < 2 ^ (v - h)) (hm : m < 2 ^ h) :
    (x ||| BitVec.ofNat v m <<< (v - h)).toNat = x.toNat + 2 ^ (v - h) * m := by
  have e : 2 ^ v = 2 ^ (v - h) * 2 ^ h := by rw [← pow_add]; congr 1; omega
  have h1 : m < 2 ^ v := lt_of_lt_of_le hm (Nat.pow_le_pow_right (by omega) hv)
  have h2 : 2 ^ (v - h) * m < 2 ^ v := by rw [e]; exact Nat.mul_lt_mul_of_pos_left hm (Nat.two_pow_pos _)
  rw [BitVec.toNat_or, BitVec.toNat_shiftLeft, BitVec.toNat_ofNat, Nat.mod_eq_of_lt h1, Nat.shiftLeft_eq,
    Nat.mul_comm m, Nat.mod_eq_of_lt h2, Nat.or_comm, ← Nat.two_pow_add_eq_or_of_lt hx, Nat.add_comm]

/-- The marker field starts CBB bits below the key's top (R230). -/
theorem pow_field_split (c : Cfg) :
    2 ^ (c.kbits - c.cbb) = 2 ^ ((c.k - 1) * c.width.bits) * 2 ^ (c.width.bits - c.cbb) := by
  have := c.cbb_le
  have := c.kbits_eq
  rw [← pow_add]; congr 1; omega

@[simp] theorem encKey_length (c : Cfg) (key : Seq c.width.bits) : (encKey c key).length = key.length := by
  simp [encKey, clrHighbits]

/-- enc_key replaces the top CBB bits of the key's integer by CtrBits - 1 (R231). -/
theorem val_encKey (c : Cfg) (key : Seq c.width.bits) (hk : key.length = c.k) :
    val (encKey c key) = val key % 2 ^ (c.kbits - c.cbb) + 2 ^ (c.kbits - c.cbb) * (c.ctrBits - 1) := by
  have hp := c.k_pos
  have hK := c.kbits_eq
  have hKK : c.k * c.width.bits = c.kbits := rfl
  have hsplit := pow_field_split c
  unfold encKey clrHighbits
  rw [hk, hKK]
  generalize hA : val key % 2 ^ (c.kbits - c.cbb) = A
  have hA2 : A < 2 ^ (c.kbits - c.cbb) := by rw [← hA]; exact Nat.mod_lt _ (Nat.two_pow_pos _)
  have hA3 : A < 2 ^ c.kbits := lt_of_lt_of_le hA2 (Nat.pow_le_pow_right (by omega) (by omega))
  have hA4 : A % 2 ^ (c.k * c.width.bits) = A := Nat.mod_eq_of_lt hA3
  rw [val_modify_last _ (c.k - 1) _ (by simp; omega), val_take, val_wordsOf, hA4]
  have hx : (List.getD (wordsOf c.width.bits c.k A) (c.k - 1) 0).toNat = A / 2 ^ ((c.k - 1) * c.width.bits) := by
    rw [toNat_getD, val_wordsOf, hA4, Nat.mod_eq_of_lt]
    apply Nat.div_lt_of_lt_mul
    rw [← pow_add, ← hK]; exact hA3
  unfold markerBits Params.v
  rw [toNat_or_shift _ c.cbb_le, hx, hsplit]
  · have := Nat.mod_add_div A (2 ^ ((c.k - 1) * c.width.bits))
    rw [Nat.mul_add, ← Nat.add_assoc, this, Nat.mul_assoc]
  · rw [hx]; apply Nat.div_lt_of_lt_mul; rw [← hsplit]; exact hA2
  · exact c.ctrBits_lt

/-- rf reads the top CBB bits of the key's integer (R230). -/
theorem markerField_eq_div (c : Cfg) (key : Seq c.width.bits) (hk : key.length = c.k) :
    markerField c key = val key / 2 ^ (c.kbits - c.cbb) := by
  unfold markerField Params.v
  rw [BitVec.toNat_ushiftRight, toNat_getD, Nat.shiftRight_eq_div_pow, pow_field_split c, ← Nat.div_div_eq_div_mul,
    Nat.mod_eq_of_lt]
  apply Nat.div_lt_of_lt_mul
  rw [← pow_add, ← c.kbits_eq]
  have := val_lt key
  rw [hk] at this; exact this

end Sys2Proof.Machine
end

