-- ==== Sys2Proof/Laws/PerInstr.lean ====
section
/-! SUPPORT. A fact about the encoding of every command, by one lemma a constructor: the low byte of its word is its
opcode, and no bit outside the fields its opcode allows is set (R111, R112, R113). -/
namespace Sys2Proof.Laws

/-- The word of a command carries its opcode and no bit outside the fields R112 allows. -/
def EncodeFields.Statement (i : Instr) : Prop :=
  opField (encode i) = opcode i ∧ encode i &&& ~~~(allowedBits (opcode i) ||| 0xFF) = 0

theorem EncodeFields.nop : EncodeFields.Statement .nop := by
  unfold Statement; decide

theorem EncodeFields.seedKey : ∀ b, EncodeFields.Statement (.seedKey b) := by
  unfold Statement; decide

theorem EncodeFields.seedInt : ∀ b, EncodeFields.Statement (.seedInt b) := by
  unfold Statement; decide

/-- Every L at once, evaluated field by field. -/
theorem EncodeFields.seedRange_bool :
    ∀ strict wide : Bool, ∀ len : Fin 16, EncodeFields.Statement (.seedRange strict wide (BitVec.ofFin len)) := by
  unfold Statement; decide +kernel

theorem EncodeFields.seedRange (strict wide : Bool) (len : BitVec 4) :
    EncodeFields.Statement (.seedRange strict wide len) :=
  EncodeFields.seedRange_bool strict wide len.toFin

theorem EncodeFields.seedSeq : EncodeFields.Statement .seedSeq := by
  unfold Statement; decide

theorem EncodeFields.restart : EncodeFields.Statement .restart := by
  unfold Statement; decide

theorem EncodeFields.load : EncodeFields.Statement .load := by
  unfold Statement; decide

theorem EncodeFields.next : EncodeFields.Statement .next := by
  unfold Statement; decide

theorem EncodeFields.discard : EncodeFields.Statement .discard := by
  unfold Statement; decide

theorem EncodeFields.prfApply : EncodeFields.Statement .prfApply := by
  unfold Statement; decide

theorem EncodeFields.clrst : EncodeFields.Statement .clrst := by
  unfold Statement; decide

end Sys2Proof.Laws
end

