-- ==== Sys2Proof/Laws/Script.lean ====
section
/-! SUPPORT. The steps of a script are steps the block has: none of them is refused, whatever the statements and the
latencies (R120, R343, R350). -/
namespace Sys2Proof.Machine

/-- A state reaches another by a list of steps, which it serves in their order. -/
def Serves (events : List Event) (s t : State) : Prop :=
  ∀ rest, Host.Core.run Sys2Proof.core events.length { s with inputs := events ++ rest } =
    .next { t with inputs := rest }

theorem Serves.nil (s : State) : Serves [] s s := fun _ => rfl

theorem Serves.cons {e : Event} {events : List Event} {s t u : State}
    (h : ∀ rest, step { s with inputs := e :: rest } = .next { t with inputs := rest }) (ht : Serves events t u) :
    Serves (e :: events) s u := by
  intro rest
  have hs : Sys2Proof.core.step { s with inputs := e :: (events ++ rest) } =
    .next { t with inputs := events ++ rest } := h (events ++ rest)
  simp only [List.length_cons, List.cons_append, Host.Core.run, hs]
  exact ht rest

theorem Serves.append {a b : List Event} {s t u : State} (ha : Serves a s t) (hb : Serves b t u) :
    Serves (a ++ b) s u := by
  have run_add : ∀ (m n : Nat) (x y : State), Host.Core.run Sys2Proof.core m x = .next y →
      Host.Core.run Sys2Proof.core (m + n) x = Host.Core.run Sys2Proof.core n y := by
    intro m n
    induction m with
    | zero => intro x y h; cases h; rw [Nat.zero_add]
    | succ m ih =>
      intro x y h
      rw [Nat.succ_add]
      simp only [Host.Core.run] at h ⊢
      split at h
      · exact ih _ _ h
      · cases h
      · cases h
  intro rest
  rw [List.length_append, List.append_assoc, run_add _ _ _ _ (ha (b ++ rest))]
  exact hb rest

/-- Does the block have a command in flight as a script sees it? -/
def Agrees (left : InFlight) (s : State) : Prop := s.pend.isSome = left.isSome

theorem regName_regIndex (r : RegName) (h : r ≠ .reserved) : regName (regIndex r) = r := by
  cases r with
  | reserved => exact absurd rfl h
  | keyin n => revert n; decide
  | ctrin n => revert n; decide
  | din n => revert n; decide
  | result n => revert n; decide
  | bout n => revert n; decide
  | ctr n => revert n; decide
  | key n => revert n; decide
  | _ => rfl

theorem serves_read (s : State) (i : Index) : Serves [.hostRead i] s (hostRead i s) :=
  .cons (fun _ => rfl) (.nil _)

/-- A write to a register is a step; it takes the block from idle to busy when it writes CMD, and else leaves that. -/
theorem serves_write (s : State) (r : RegName) (x : Reg) :
    ∃ t, Serves [.hostWrite (regIndex r) x] s t ∧
      t.pend.isSome = (s.pend.isSome || decide (r = .cmd)) := by
  refine ⟨regWrite (regIndex r) x s, .cons (fun rest => ?_) (.nil _), ?_⟩
  · show Host.Outcome.next (regWrite (regIndex r) x { s with inputs := rest }) = _
    unfold regWrite
    cases regName (regIndex r) <;> simp only [writeName]
    unfold writeCmd accept busy
    dsimp only
    cases s.pend.isSome <;> rfl
  · by_cases hr : r = .reserved
    · subst hr
      have : regName (regIndex .reserved) = .reserved := rfl
      unfold regWrite; rw [this]; simp [writeName]
    · unfold regWrite
      rw [regName_regIndex r hr]
      cases r <;> simp only [writeName, reduceCtorEq, decide_false, decide_true, Bool.or_false, Bool.or_true]
      unfold writeCmd busy
      cases h : s.pend.isSome
      · rfl
      · exact h

/-- A command in flight completes in one step, and the block is idle then (R300). -/
theorem serves_complete {s : State} (h : s.pend.isSome = true) : ∃ t, Serves [.complete] s t ∧ t.pend = none := by
  obtain ⟨p, hp⟩ := Option.isSome_iff_exists.mp h
  cases hd : decode p.cmd with
  | error e =>
    refine ⟨failWith p (.illegal e) s, .cons (fun rest => ?_) (.nil _), rfl⟩
    exact complete_eq_next.mpr ⟨p, hp, .inr ⟨e, hd, rfl⟩⟩
  | ok i =>
    cases hb : commandBody s.cfg s.eng s.res p.snap i with
    | ok x =>
      refine ⟨commit p (staged s x), .cons (fun rest => ?_) (.nil _), rfl⟩
      exact complete_eq_next.mpr ⟨p, hp, .inl ⟨i, hd, exec_ok (s := { s with inputs := rest }) hp hb⟩⟩
    | error e =>
      refine ⟨failWith p e s, .cons (fun rest => ?_) (.nil _), rfl⟩
      exact complete_eq_next.mpr ⟨p, hp, .inl ⟨i, hd, exec_error (s := { s with inputs := rest }) hp hb⟩⟩

theorem serves_due {left : InFlight} {s : State} (h : Agrees left s) :
    ∃ t, Serves (completeDue left) s t ∧ Agrees (afterAccess left) t := by
  match left with
  | none => exact ⟨s, .nil s, h⟩
  | some 0 =>
    obtain ⟨t, ht, hp⟩ := serves_complete (h.trans rfl)
    exact ⟨t, ht, by rw [Agrees, hp]; rfl⟩
  | some (n + 1) => exact ⟨s, .nil s, h⟩

theorem serves_reads (n : Nat) (i : Index) (s : State) :
    ∃ t, Serves (List.replicate n (.hostRead i)) s t ∧ t.pend = s.pend := by
  induction n generalizing s with
  | zero => exact ⟨s, .nil s, rfl⟩
  | succ n ih =>
    obtain ⟨t, ht, hp⟩ := ih (hostRead i s)
    exact ⟨t, (serves_read s i).append ht, hp⟩

/-- POLL is served on an idle and on a busy block, and its last read is of an idle block. -/
theorem serves_poll {left : InFlight} {s : State} (h : Agrees left s) :
    ∃ t, t.pend = none ∧ Serves (pollEvents left) s (hostRead (regIndex .status) t) := by
  match left with
  | none => exact ⟨s, by simpa [Agrees] using h, serves_read s _⟩
  | some n =>
    obtain ⟨t, ht, hp⟩ := serves_reads n (regIndex .status) s
    obtain ⟨u, hu, hq⟩ := serves_complete (s := t) (by rw [hp]; exact h)
    exact ⟨u, hq, ht.append (hu.append (serves_read u _))⟩

theorem serves_stmt (latency : Nat) {left : InFlight} {s : State} (st : Stmt) (h : Agrees left s) :
    ∃ t, Serves (stmtEvents left st) s t ∧ Agrees (afterStmt latency left st) t := by
  cases st with
  | poll =>
    obtain ⟨t, hp, ht⟩ := serves_poll h
    exact ⟨_, ht, by simp [Agrees, afterStmt, hostRead, hp]⟩
  | rd r =>
    obtain ⟨t, ht, hp⟩ := serves_due h
    exact ⟨_, ht.append (serves_read t _), hp⟩
  | wr r x =>
    obtain ⟨t, ht, hp⟩ := serves_due h
    obtain ⟨u, hu, hq⟩ := serves_write t r x
    refine ⟨u, ht.append hu, ?_⟩
    unfold Agrees at hp ⊢
    rw [hq, hp]
    by_cases hr : r = .cmd <;> cases hl : afterAccess left <;> simp [afterStmt, acceptsCmd, writesCmd, hr, hl]
  | command i =>
    obtain ⟨t, ht, hp⟩ := serves_due h
    obtain ⟨u, hu, hq⟩ := serves_write t .cmd (encode i)
    refine ⟨u, ht.append hu, ?_⟩
    unfold Agrees at hp ⊢
    rw [hq, hp]
    cases hl : afterAccess left <;> simp [afterStmt, acceptsCmd, writesCmd, hl]

/-- Every script is served to its end from a block in the condition it starts from. -/
theorem serves_script (stmts : List Stmt) (latencies : List Nat) {left : InFlight} {s : State} (h : Agrees left s) :
    ∃ t, Serves (scriptEvents latencies left stmts) s t := by
  induction stmts generalizing latencies left s with
  | nil => exact ⟨s, .nil s⟩
  | cons st rest ih =>
    obtain ⟨t, ht, hp⟩ := serves_stmt (latencies.headD 0) st h
    obtain ⟨u, hu⟩ := ih (if acceptsCmd left st then latencies.tail else latencies) hp
    exact ⟨u, ht.append hu⟩

end Sys2Proof.Machine
end

