-- ==== Sys2Proof/Laws/Seed.lean ====
section
/-! SUPPORT. What the shared operations of the seeding commands do: operands, packing, the checks (R119, R144, R233). -/
namespace Sys2Proof.Machine

@[simp] theorem keyOperand_length (c : Cfg) (snap : Staging) : (keyOperand c snap).length = c.k :=
  seqOf_length c.k_le _

@[simp] theorem ctrOperand_length (c : Cfg) (snap : Staging) : (ctrOperand c snap).length = c.n :=
  seqOf_length c.n_le _

@[simp] theorem baseOperand_length (c : Cfg) (b : Bool) (snap : Staging) : (baseOperand c b snap).length = c.n := by
  unfold baseOperand; split <;> simp

theorem inputOperand_length {u len : Nat} (h : len ≤ 8) (snap : Staging) :
    (inputOperand u len snap).length = len := by
  simp [inputOperand, octRegs, h]

theorem inputOperand_take (u len m : Nat) (snap : Staging) :
    (inputOperand u len snap).take m = inputOperand u (min len m) snap := by
  unfold inputOperand; rw [← List.map_take, List.take_take, Nat.min_comm]

/-- check_base fails exactly when B is 1 and the counter operand's low CtrBits bits are not 0 (R233). -/
theorem baseRejected_iff (c : Cfg) (b : Bool) (snap : Staging) :
    baseRejected c (baseOperand c b snap) = true ↔ b = true ∧ val (ctrOperand c snap) % 2 ^ c.ctrBits ≠ 0 := by
  cases b <;> simp [baseOperand, baseRejected, lowPart, val_makeZero]

theorem hold_makeZero (c : Cfg) : hold (makeZero c.width.bits c.n) = ⟨0, 0, 0, 0⟩ := by
  rcases c.n_cases with h | h <;> rw [h] <;> simp [makeZero, hold, quadOf, List.replicate]

/-- Packing at most eight DIN words: the consumed words are the input cut at what the target needs (R144). -/
theorem pack_inputOperand (v n u len : Nat) (h : len ≤ 8) (snap : Staging) :
    pack v n (inputOperand u len snap) =
      { target := wordsOf v n (val (inputOperand u (min len ((n * v + u - 1) / u)) snap))
        consumed := min len ((n * v + u - 1) / u)
        leftover := val (inputOperand u (min len ((n * v + u - 1) / u)) snap) / 2 ^ (n * v) } := by
  unfold pack
  simp only [inputOperand_length h, inputOperand_take]
  have : min len (min len ((n * v + u - 1) / u)) = min len ((n * v + u - 1) / u) := by omega
  rw [this]
  congr 1
  exact wordsOf_congr (by simp)

end Sys2Proof.Machine
end

