-- ==== Sys2Proof/Tests/Slice0.lean ====
section
/-! SUPPORT. Tests: words written out from 30_encoding.md, vectors of 95_test_vectors.md (each named in its comment), and
for every statement with hypotheses a concrete case that meets them. -/
namespace Sys2Proof.Tests

open Sys2Proof Sys2Proof.Machine

-- One test after another: tests that wait for one another would each hold a thread.
set_option Elab.async false

/-! ### Small states -/

/-- CFG-B. -/
def cfgB : Cfg := ⟨⟨.philox, .two, .w32, 10, 32, 64⟩, by decide⟩

/-- CFG-C. -/
def cfgC : Cfg := ⟨⟨.threefry, .two, .w64, 20, 128, 64⟩, by decide⟩

/-- CFG-D. -/
def cfgD : Cfg := ⟨⟨.philox, .four, .w32, 10, 32, 2⟩, by decide⟩

/-- CFG-E. -/
def cfgE : Cfg := ⟨⟨.philox, .two, .w64, 10, 16, 128⟩, by decide⟩

/-- CFG-F. -/
def cfgF : Cfg := ⟨⟨.threefry, .four, .w64, 20, 256, 8⟩, by decide⟩

/-- The staging registers after reset with ARG, KEYIN, CTRIN and DIN0, DIN1. -/
def stagingOf (arg : Reg) (keyin ctrin : Quad) (d0 d1 : Reg) : Staging :=
  { arg := arg, keyin := keyin, ctrin := ctrin, din := { Oct.zero with d0 := d0, d1 := d1 } }

/-- A block after reset with these staging registers. -/
def idleWith (c : Cfg) (stg : Staging) : State := { State.resetOf c with stg := stg }

/-- The snapshot and word of a command accepted with these staging registers. -/
def pendOf (i : Instr) (stg : Staging) : Pending := { cmd := encode i, snap := stg }

/-- A block after reset, with these staging registers, that has just accepted a command. -/
def busyWith (c : Cfg) (stg : Staging) (i : Instr) : State := accept (encode i) (idleWith c stg)

/-- A block that has just accepted a command word. -/
def busyWord (c : Cfg) (cw : Reg) : State := accept cw (State.resetOf c)

/-- What a next state shows; none for any other outcome. -/
def seen {α : Type} (f : State → α) : Result → Option α
  | .next t => some (f t)
  | .fault _ => none
  | .refused _ => none

/-- STATUS as the host reads it. -/
def statusOf (s : State) : Reg := regRead s 0x01

def zeroStaging : Staging := stagingOf 0 Quad.zero Quad.zero 0 0

/-- The engine of CFG-A after V-N1, its block from the table of §4.4. -/
def engineN1 : Engine :=
  ⟨⟨0x1234, 0x3E000000, 0, 0⟩, ⟨1, 0, 0, 0⟩, ⟨0x05C9DA6D, 0x10960BF9, 0x360AA552, 0x34381542⟩, 1⟩

/-- The engine of CFG-A after V-SI1. -/
def engineSI1 : Engine := ⟨⟨0x1234, 0x3E000000, 0, 0⟩, Quad.zero, Quad.zero, 4⟩

/-- The engine of CFG-D with the window used up, after V-DC7. -/
def engineDC7 : Engine := ⟨⟨0, 0x02000000, 0, 0⟩, ⟨3, 0, 0, 0⟩, Quad.zero, 4⟩

/-- A block in CFG-A with this engine that has just accepted a command with this ARG. -/
def busyEngine (c : Cfg) (e : Engine) (arg : Reg) (i : Instr) : State :=
  accept (encode i) { idleWith c (stagingOf arg Quad.zero Quad.zero 0 0) with eng := e }

/-! ### WellFormed -/

/-- The one check: L = 9 is refused, L = 8 passes (R117). -/
theorem test_wellFormed_length :
    (Instr.seedRange false false 9).wellFormed = false ∧ (Instr.seedRange true true 8).wellFormed = true := by decide

/-! ### Decoding: every command's word written out bit by bit (R111, R113, R122) -/

theorem test_decode_nop : decode 0b00000000 = .ok .nop := by decide
theorem test_decode_seedKey : decode 0b1_00000001 = .ok (.seedKey true) ∧ decode 0b0_00000001 = .ok (.seedKey false) := by
  decide
theorem test_decode_seedInt : decode 0b1_00000010 = .ok (.seedInt true) ∧ decode 0b0_00000010 = .ok (.seedInt false) := by
  decide
/-- L = 1, U = 1, S = 1; then L = 8, U = 1, S = 0; then L = 2, U = 0, S = 1. -/
theorem test_decode_seedRange :
    decode 0b0001_00000_1_1_0_00000011 = .ok (.seedRange true true 1) ∧
      decode 0b1000_00000_1_0_0_00000011 = .ok (.seedRange false true 8) ∧
      decode 0b0010_00000_0_1_0_00000011 = .ok (.seedRange true false 2) := by decide
theorem test_decode_seedSeq : decode 0b00000100 = .ok .seedSeq := by decide
theorem test_decode_restart : decode 0b00000101 = .ok .restart := by decide
theorem test_decode_load : decode 0b00000110 = .ok .load := by decide
theorem test_decode_next : decode 0b00001000 = .ok .next := by decide
theorem test_decode_discard : decode 0b00001001 = .ok .discard := by decide
theorem test_decode_prfApply : decode 0b00001100 = .ok .prfApply := by decide
theorem test_decode_clrst : decode 0b00001111 = .ok .clrst := by decide

/-- The opcode comes before the fields, the fields before L (R114): 0x107 is unassigned first, 0x90103 has B set and L = 9. -/
theorem test_decode_order :
    decode 0x107 = .error .unassignedOpcode ∧ decode 0x90103 = .error .reservedBit ∧
      decode 0x90003 = .error .lengthOutOfRange ∧ decode 0x8000000000000000 = .error .reservedBit := by decide

/-! ### Constants: the CONFIG column and the reset keys of §0 -/

theorem test_config_words :
    regRead State.reset 0x3F = 0x381040200A204240 ∧ regRead (State.resetOf cfgB) 0x3F = 0x300880200A202120 ∧
      regRead (State.resetOf cfgC) 0x3F = 0x3804808014402221 ∧ regRead (State.resetOf cfgD) 0x3F = 0x381004200A204240 ∧
      regRead (State.resetOf cfgE) 0x3F = 0x382100100A402120 ∧
      regRead (State.resetOf cfgF) 0x3F = 0x4004110014404441 := by decide +kernel

theorem test_reset_keys :
    regRead State.reset 0x22 = 0x3E000000 ∧ regRead (State.resetOf cfgB) 0x21 = 0xFC000000 ∧
      regRead (State.resetOf cfgC) 0x22 = 0x7E00000000000000 ∧ regRead (State.resetOf cfgD) 0x22 = 0x02000000 ∧
      regRead (State.resetOf cfgE) 0x21 = 0xFE00000000000000 ∧
      regRead (State.resetOf cfgF) 0x24 = 0x0700000000000000 := by decide +kernel

/-! ### Traits: §3 -/

/-- §3.1, rows 1, 4, 5 and 6. -/
theorem test_incr :
    incr 32 [0xFFFFFFFF#32, 0#32, 0#32, 0#32] 1 = none ∧
      incr 40 [0xFFFFFFFF#32, 0x7F#32, 5#32, 0#32] 1 = some [0#32, 0x80#32, 5#32, 0#32] ∧
      incr 40 [0xFFFFFFFF#32, 0xFF#32, 5#32, 0#32] 1 = none ∧
      incr 2 [5#32, 0#32, 0#32, 0#32] 1 = some [6#32, 0#32, 0#32, 0#32] := by decide +kernel

/-- §3.2, rows 1 and 2. -/
theorem test_clrHighbits :
    clrHighbits 7 [1#32, 2#32, 3#32, 0xFF000000#32] = ([1#32, 2#32, 3#32, 0x01000000#32], true) ∧
      clrHighbits 7 [1#32, 2#32, 3#32, 0x01FFFFFF#32] = ([1#32, 2#32, 3#32, 0x01FFFFFF#32], false) := by decide +kernel

/-- §3.3, the make_from_int, pack and pack_strict rows. -/
theorem test_pack :
    makeFromInt 32 1 (2 ^ 32) = none ∧ makeFromInt 32 2 0x123456789 = some [0x23456789#32, 1#32] ∧
      pack 64 2 [1#32, 2#32, 3#32, 4#32] = ⟨[0x0000000200000001#64, 0x0000000400000003#64], 4, 0⟩ ∧
      pack 32 1 [0x0000000500000007#64] = ⟨[7#32], 1, 5⟩ ∧ packStrict 32 1 [0x0000000500000007#64] = none ∧
      makeFromSeedseq 64 1 [1#32, 2#32] = [0x0000000200000001#64] := by decide +kernel

/-- §3.4, Block A in the three regimes. -/
theorem test_extraction :
    atW 8 5 [0x03020100#32, 0x07060504#32, 0x0B0A0908#32, 0x0F0E0D0C#32] = 0x05 ∧
      atW 32 2 [0x03020100#32, 0x07060504#32, 0x0B0A0908#32, 0x0F0E0D0C#32] = 0x0B0A0908 ∧
      atW 64 1 [0x03020100#32, 0x07060504#32, 0x0B0A0908#32, 0x0F0E0D0C#32] = 0x0F0E0D0C0B0A0908 ∧
      atWords 1 8 [0x03020100#32, 0x07060504#32, 0x0B0A0908#32, 0x0F0E0D0C#32] = 1 := by decide +kernel

/-! ### PRF: rows of §2.1 that no statement uses -/

/-- K6, K12 (Philox, the pi rows). -/
theorem test_philox :
    philox4 .w32 10 (twoOf [0xA4093822#32, 0x299F31D0#32])
        (fourOf [0x243F6A88#32, 0x85A308D3#32, 0x13198A2E#32, 0x03707344#32]) =
      ⟨0xD16CFE09#32, 0x94FDCCEB#32, 0x5001E420#32, 0x24126EA1#32⟩ ∧
    philox4 .w64 10 (twoOf [0x452821E638D01377#64, 0xBE5466CF34E90C6C#64])
        (fourOf [0x243F6A8885A308D3#64, 0x13198A2E03707344#64, 0xA4093822299F31D0#64, 0x082EFA98EC4E6C89#64]) =
      ⟨0xA528F45403E61D95#64, 0x38C72DBD566E9788#64, 0xA5A1610E72FD18B5#64, 0x57BD43B5E52B7FE6#64⟩ := by decide +kernel

/-- K16, K18, K21 (Threefry). -/
theorem test_threefry :
    threefry4 .w32 20 (fourOf [-1#32, -1#32, -1#32, -1#32]) (fourOf [-1#32, -1#32, -1#32, -1#32]) =
      ⟨0x2A881696#32, 0x57012287#32, 0xF6C7446E#32, 0xA16A6732#32⟩ ∧
    threefry2 .w64 20 (twoOf [-1#64, -1#64]) (twoOf [-1#64, -1#64]) = ⟨0xE02CB7C4D95D277A#64, 0xD06633D0893B8B68#64⟩ ∧
    threefry2 .w64 13 (twoOf [0#64, 0#64]) (twoOf [0#64, 0#64]) = ⟨0xF167B032C3B480BD#64, 0xE91F9FEE4B7A6FB5#64⟩ := by
  decide +kernel

/-! ### Commands: §4, one Complete each -/

/-- V-SI1. -/
theorem test_seedInt :
    seen (fun t => (t.eng.key, t.eng.cursor, statusOf t))
      (complete (busyWith Cfg.a (stagingOf 0x1234 Quad.zero Quad.zero 0 0) (.seedInt false))) =
      some (⟨0x1234, 0x3E000000, 0, 0⟩, 4, 0x02000000) := by decide +kernel

/-- V-SI7: the key check comes before the base check. -/
theorem test_seedInt_order :
    seen (fun t => (t.eng, statusOf t))
      (complete (busyWith Cfg.a (stagingOf (2 ^ 63) Quad.zero ⟨9, 0, 0, 0⟩ 0 0) (.seedInt true))) =
      some (Engine.reset Cfg.a, 0x02010200) := by decide +kernel

/-- V-SK1. -/
theorem test_seedKey :
    seen (fun t => (t.eng.key, t.eng.ctr, statusOf t))
      (complete (busyWith cfgC (stagingOf 0 ⟨0xDEADBEEF, 1, 0, 0⟩ ⟨0, 0x42, 0, 0⟩ 0 0) (.seedKey true))) =
      some (⟨0xDEADBEEF, 0x7E00000000000001, 0, 0⟩, ⟨0, 0x42, 0, 0⟩, 0x01000000) := by decide +kernel

/-- V-SK5: a base with low bits set. -/
theorem test_seedKey_base :
    seen statusOf (complete (busyWith Cfg.a (stagingOf 0 ⟨5, 0x01FFFFFF, 0, 0⟩ ⟨1, 0, 0, 0⟩ 0 0) (.seedKey true))) =
      some 0x01020200 := by decide +kernel

/-- V-SR2. -/
theorem test_seedRange :
    seen (fun t => (t.eng.key, t.res.consumed, statusOf t))
      (complete (busyWith cfgB (stagingOf 0 Quad.zero Quad.zero 0x0000000500000007 0) (.seedRange false true 1))) =
      some (⟨0xFC000007, 0, 0, 0⟩, 1, 0x03000000) := by decide +kernel

/-- V-SR1: strict, with leftover bits. -/
theorem test_seedRange_strict :
    seen (fun t => (t.res.consumed, statusOf t))
      (complete (busyWith cfgB (stagingOf 0 Quad.zero Quad.zero 0x0000000500000007 0) (.seedRange true true 1))) =
      some (0, 0x03020300) := by decide +kernel

/-- V-SQ1. -/
theorem test_seedSeq :
    seen (fun t => (t.eng.key, t.res.consumed, t.eng.cursor))
      (complete (busyWith cfgE (stagingOf 0 Quad.zero Quad.zero 1 2) .seedSeq)) =
      some (⟨0xFE00000200000001, 0, 0, 0⟩, 2, 8) := by decide +kernel

/-- V-RS3. -/
theorem test_restart :
    seen (fun t => (t.eng.ctr, t.eng.cursor))
      (complete (busyWith Cfg.a (stagingOf 0 Quad.zero ⟨0, 7, 0, 0⟩ 0 0) .restart)) =
      some (⟨0, 7, 0, 0⟩, 4) := by decide +kernel

/-- V-LD1: the state saved after V-N5; the block is the table's at counter 2. -/
theorem test_load :
    seen (fun t => (t.eng.cursor, t.eng.blk))
      (complete (busyWith Cfg.a (stagingOf 1 ⟨0x1234, 0x3E000000, 0, 0⟩ ⟨2, 0, 0, 0⟩ 0 0) .load)) =
      some (1, ⟨0xCB9513C4, 0x29D29435, 0x275C3085, 0x0B98F7FE⟩) := by decide +kernel

/-- Serialization round trip (R239, R240): the state after V-N1, read, staged and loaded into a block after reset. -/
theorem test_save_restore :
    seen (fun t => t.eng)
      (issue .load { State.reset with
        stg := stageState 4 (serialize { State.reset with eng := engineN1 }) State.reset.stg }) = some engineN1 := by
  decide +kernel

/-- The port's read-only indices at their ends: RESULT0 and RESULT3 at 0x14 and 0x17, BOUT0 and BOUT3 at 0x18 and 0x1B
(R35). -/
theorem test_port_results :
    let s : State := { State.resetOf cfgF with res := ⟨⟨1, 2, 3, 4⟩, ⟨5, 6, 7, 8⟩, 4⟩, cmd := 0x0F }
    [regRead s 0x00, regRead s 0x03, regRead s 0x14, regRead s 0x17, regRead s 0x18, regRead s 0x1B] =
      [0x0F, 4, 1, 4, 5, 8] := by decide +kernel

/-- V-LD3: another configuration's marker. -/
theorem test_load_marker :
    seen statusOf (complete (busyWith Cfg.a (stagingOf 1 ⟨0, 0x02000000, 0, 0⟩ Quad.zero 0 0) .load)) =
      some 0x06020400 := by decide +kernel

/-- V-N1: the first draw after V-SI1. -/
theorem test_next :
    seen (fun t => (t.eng, t.res.result)) (complete (busyEngine Cfg.a engineSI1 0 .next)) =
      some (engineN1, ⟨0x05C9DA6D, 0, 0, 0⟩) := by decide +kernel

/-- V-N11: the window is used up. -/
theorem test_next_exhausted :
    seen (fun t => (t.eng, statusOf t)) (complete (busyEngine cfgD engineDC7 0 .next)) =
      some (engineDC7, 0x08000100) := by decide +kernel

/-- V-DC1. -/
theorem test_discard :
    seen (fun t => (t.eng.cursor, t.eng.ctr, t.eng.blk)) (complete (busyEngine Cfg.a engineSI1 6 .discard)) =
      some (2, ⟨2, 0, 0, 0⟩, ⟨0xCB9513C4, 0x29D29435, 0x275C3085, 0x0B98F7FE⟩) := by decide +kernel

/-- V-DC2: the boundary correction. -/
theorem test_discard_boundary :
    seen (fun t => (t.eng.cursor, t.eng.ctr)) (complete (busyEngine Cfg.a engineSI1 8 .discard)) =
      some (4, ⟨2, 0, 0, 0⟩) := by decide +kernel

/-- V-PA1: S1 through the command. -/
theorem test_prfApply :
    seen (fun t => (t.res.bout, t.eng, statusOf t))
      (complete (busyWith cfgB (stagingOf 0 ⟨1, 0, 0, 0⟩ ⟨0x243F6A88, 0x85A308D3, 0, 0⟩ 0 0) .prfApply)) =
      some (⟨0x249CDC9C, 0x4F745808, 0, 0⟩, Engine.reset cfgB, 0x0C000000) := by decide +kernel

/-- V-NP2: CODE returns to OK, DROPPED stays. -/
theorem test_nop :
    seen statusOf (complete (accept (encode .nop)
      { State.reset with status := ⟨true, 0x01, 0x00, 0x08⟩ })) = some 0x00000002 := by decide +kernel

/-- V-CL1: DROPPED falls at acceptance, before the completion. -/
theorem test_clrst :
    seen statusOf (complete (regWrite 0x00 0x0F { State.reset with status := ⟨true, 0x05, 0x03, 0x03⟩ })) =
      some 0x0F000000 ∧
      (regWrite 0x00 0x0F { State.reset with status := ⟨true, 0x05, 0x03, 0x03⟩ }).status.dropped = false := by
  decide +kernel

/-- V-CL2: a word that is not a legal CLRST leaves DROPPED. -/
theorem test_clrst_illegal :
    seen statusOf (complete (regWrite 0x00 0x1F { State.reset with status := ⟨true, 0x03, 0x03, 0x05⟩ })) =
      some 0x1F010502 := by decide +kernel

/-- P6 case (a): a second CMD write while busy is dropped, and STATUS keeps the last completion's fields. -/
theorem test_drop :
    statusOf (regWrite 0x00 0x08 (busyEngine Cfg.a engineSI1 0 .next)) = 0x00000003 := by decide +kernel

/-! ### The fixed entry points -/

theorem test_decodeTableWord :
    decodeTableWord 64 0x10603 = some (.seedRange true true 1) ∧ decodeTableWord 8 0x0F = some .clrst ∧
      decodeTableWord 64 0x07 = none := by decide

/-- withFetchWord's word runs in the very next step (log 5): SEED.INT with the reset ARG gives the reset key again. -/
theorem test_withFetchWord :
    seen (fun t => (t.eng, statusOf t, t.inputs)) (step (State.reset.withFetchWord 64 0x02)) =
      some (Engine.reset Cfg.a, 0x02000000, []) := by decide +kernel

/-- The expansion and the text of scripts (R120, R121): SKIP 6 of P2, and a SEED.RANGE statement of P5. -/
theorem test_script :
    scriptEvents [1] none (expand Cfg.a (.skip 6)) =
        [.hostWrite 0x02 6, .hostWrite 0x00 0x09, .hostRead 0x01, .complete, .hostRead 0x01] ∧
      commandText (.seedRange true true 1) = "SEED.RANGE u64, 1, strict" := by decide +kernel

/-- POLL (R120): one read each on an idle block, and the two runs of P6: (a) the second CMD write while busy, (b) the
first NEXT completed before it. -/
theorem test_script_poll :
    scriptEvents [] none [.poll, .poll] = [.hostRead 0x01, .hostRead 0x01] ∧
      scriptEvents [1] none [.wr .cmd 0x8, .wr .cmd 0x8, .poll] =
        [.hostWrite 0x00 0x8, .hostWrite 0x00 0x8, .complete, .hostRead 0x01] ∧
      scriptEvents [0, 0] none [.wr .cmd 0x8, .wr .cmd 0x8, .poll] =
        [.hostWrite 0x00 0x8, .complete, .hostWrite 0x00 0x8, .complete, .hostRead 0x01] := by decide +kernel

/-- Reading lines of P2 and P5 (R120, R121). -/
theorem test_script_read :
    readLine Cfg.a "        SKIP    6                        ; WR ARG, 6 ; EXEC DISCARD" = some (expand Cfg.a (.skip 6)) ∧
      readLine cfgB "EXEC    SEED.RANGE u64, 1, strict" = some [.command (.seedRange true true 1), .poll] ∧
      readLine cfgB "WR      DIN0, 0x0000000500000007" = some [.wr (.din 0) 0x0000000500000007] ∧
      readLine Cfg.a "RESTORE 3, 2,0,0,0, 0x1234,0x3E000000" =
        some (expand Cfg.a (.restore 3 [2, 0, 0, 0] [0x1234, 0x3E000000])) := by decide +kernel

/-! ### Witnesses: for every statement with hypotheses, a case that meets them all -/

/-- DecodeOfEncode: both sides of L = 8. -/
theorem witness_DecodeOfEncode :
    (Instr.seedRange true true 8).wellFormed = true ∧ (Instr.seedRange true true 9).wellFormed = false := by decide

/-- EncodeOfDecode. -/
theorem witness_EncodeOfDecode : decode 0x80603 = .ok (.seedRange true true 8) := by decide

/-- IllegalWordsWriteStatusOnly: the three clauses, where they meet: 0x109 has B set on DISCARD, 0x90103 B set and
L = 9, 0x90003 only L = 9, the least illegal L. -/
theorem witness_IllegalWordsWriteStatusOnly :
    (busyWord Cfg.a 0x107).pend = some ⟨0x107, zeroStaging⟩ ∧ opField 0x107 = 0x07 ∧
      (busyWord Cfg.a 0x109).pend = some ⟨0x109, zeroStaging⟩ ∧ (0x109 : Reg) &&& ~~~0xFF ≠ 0 ∧
      (busyWord Cfg.a 0x90103).pend = some ⟨0x90103, zeroStaging⟩ ∧ (0x90103 : Reg) &&& ~~~0xF06FF ≠ 0 ∧
      (busyWord Cfg.a 0x90003).pend = some ⟨0x90003, zeroStaging⟩ ∧ (0x90003 : Reg) &&& ~~~0xF06FF = 0 ∧
      8 < (lField 0x90003).toNat := by decide

/-- StepRunsDecoded: Complete next, nothing asked for, and a table word. -/
theorem witness_StepRunsDecoded :
    (busyWith Cfg.a zeroStaging .next).pend = some (pendOf .next zeroStaging) ∧
      decode (pendOf .next zeroStaging).cmd = .ok .next ∧ (busyWith Cfg.a zeroStaging .next).inputs = [] ∧
      ({ busyWith Cfg.a zeroStaging .next with inputs := [.complete] } : State).inputs = .complete :: [] ∧
      decodeTableWord 64 0x08 = some .next := by decide +kernel

/-- CmdWriteAcceptedWhenIdle, and the idle hypotheses of ClrstClearsDropped (the last word is not CLRST's). -/
theorem witness_CmdWriteAcceptedWhenIdle :
    State.reset.pend = none ∧ ({ State.reset with inputs := [.hostWrite 0 0x0F] } : State).inputs =
      .hostWrite 0x00 0x0F :: [] ∧ (0x1F : Reg) ≠ 0x0F := by decide

/-- CmdWriteDroppedWhenBusy: both hypotheses, and the second clause's steps: a Complete and a read of an idle block whose
CMD already holds CLRST's word keep DROPPED; the acceptance of CLRST and Reset clear it. -/
theorem witness_CmdWriteDroppedWhenBusy :
    let s : State := { busyWith Cfg.a zeroStaging .nop with inputs := [.hostWrite 0 8] }
    let u (s : State) (e : Event) : State :=
      { s with status := { s.status with dropped := true }, cmd := 0x0F, inputs := [e] }
    s.pend = some (pendOf .nop zeroStaging) ∧ s.inputs = .hostWrite 0x00 8 :: [] ∧
      seen (fun t => t.status.dropped) (step (u s .complete)) = some true ∧
      seen (fun t => t.status.dropped) (step (u State.reset (.hostRead 0))) = some true ∧
      seen (fun t => (t.status.dropped, t.pend.map Pending.cmd)) (step (u State.reset (.hostWrite 0 0x0F))) =
        some (false, some 0x0F) ∧
      seen (fun t => t.status.dropped) (step (u s .reset)) = some false := by decide +kernel

/-- HostReadChangesNothing. -/
theorem witness_HostReadChangesNothing :
    ({ State.reset with inputs := [.hostRead 0x3F] } : State).inputs = .hostRead 0x3F :: [] := by decide

/-- BusAccessIsRegisterAccess: lane 7, and accesses just outside: offset 512, offset 504 with 4 bytes, offset 4. -/
theorem witness_BusAccessIsRegisterAccess :
    7 < 8 ∧ ¬(8 = 8 ∧ 512 % 8 = 0 ∧ 512 < 512) ∧ ¬(4 = 8 ∧ 504 % 8 = 0 ∧ 504 < 512) ∧
      ¬(8 = 8 ∧ 4 % 8 = 0 ∧ 4 < 512) ∧ ([1, 2, 3, 4] : List (BitVec 8)).length = 4 := by decide

/-- PollingFindsIdle: two reads before the completion. -/
theorem witness_PollingFindsIdle :
    let s : State := { busyWith Cfg.a zeroStaging .next with inputs := [.hostRead 1, .hostRead 1] }
    s.pend = some (pendOf .next zeroStaging) ∧ s.inputs = List.replicate 2 (.hostRead 0x01) := by decide +kernel

/-- RegistersStableInFlight: a dropped CMD write, a staging write and a read; the boundary registers are 0x14 and 0x03. -/
theorem witness_RegistersStableInFlight :
    let s (e : Event) : State := { busyWith Cfg.a zeroStaging .next with inputs := [e] }
    (s (.hostWrite 0 8)).pend = some (pendOf .next zeroStaging) ∧
      seen statusOf (step (s (.hostWrite 0 8))) = some 0x03 ∧ seen statusOf (step (s (.hostWrite 4 8))) = some 0x01 ∧
      seen statusOf (step (s (.hostRead 0x14))) = some 0x01 ∧ (0x14 : Index).toNat = 0x14 ∧ (0x03 : Index).toNat = 0x03 := by
  decide +kernel

/-- OutcomeIndependentOfStaging, CommandFrame, WrittenByTheMap: a command that completes. -/
theorem witness_exec_next :
    seen (fun t => t.status.code) (exec .next (busyEngine Cfg.a engineSI1 0 .next)) = some 0x00 := by decide +kernel

/-- WrittenByTheMap, its changes: NEXT changes RESULT, BLK, CTR and CURSOR; PRF.APPLY BOUT; SEED.SEQ CONSUMED and KEY. -/
theorem witness_WrittenByTheMap :
    seen (fun t => decide (t.res.result ≠ Quad.zero ∧ t.eng.blk ≠ Quad.zero ∧ t.eng.ctr ≠ Quad.zero))
        (exec .next (busyEngine Cfg.a engineSI1 0 .next)) = some true ∧
      seen (fun t => decide (t.res.bout ≠ Quad.zero)) (exec .prfApply (busyWith Cfg.a zeroStaging .prfApply)) = some true ∧
      seen (fun t => decide (t.res.consumed ≠ 0 ∧ t.eng.key ≠ resetKey cfgE))
        (exec .seedSeq (busyWith cfgE (stagingOf 0 Quad.zero Quad.zero 1 2) .seedSeq)) = some true := by decide +kernel

/-- StagingWriteReadsBack: ARG, and the ends of the word registers (0x04, 0x0B) and of DIN (0x0C, 0x13). -/
theorem witness_StagingWriteReadsBack :
    (0x02 : Index).toNat = 0x02 ∧ (0x04 : Index).toNat = 0x04 ∧ (0x0B : Index).toNat = 0x0B ∧
      (0x0C : Index).toNat = 0x0C ∧ (0x13 : Index).toNat = 0x13 ∧ (0x13 : Index) ≠ 0x04 := by decide

/-- ReadOnlyWritesIgnored: the ends of its ranges. -/
theorem witness_ReadOnlyWritesIgnored :
    (0x01 : Index).toNat = 0x01 ∧ (0x03 : Index).toNat = 0x03 ∧ 0x14 ≤ (0x14 : Index).toNat ∧
      0x14 ≤ (0x3F : Index).toNat ∧ 0x25 ≤ (0x25 : Index).toNat ∧ (0x3D : Index).toNat ≤ 0x3D := by decide

/-- EngineViews: word 3, past the key of CFG-A and inside its counter. -/
theorem witness_EngineViews : 3 < 4 ∧ 3 < Cfg.a.n ∧ ¬3 < Cfg.a.k := by decide

/-- IdAndConfig's last clause. -/
theorem witness_IdAndConfig : State.reset.cfg = Cfg.a := by decide

/-- ResetDiscardsCommand: with a command in flight. -/
theorem witness_ResetDiscardsCommand :
    let s : State := { busyEngine Cfg.a engineN1 7 .next with inputs := [.reset, .hostRead 0] }
    s.inputs = .reset :: [.hostRead 0] ∧ s.pend.isSome = true := by decide

theorem engineSI1_inv : EngineInv Cfg.a engineSI1 where
  keyFits := by decide +kernel
  ctrFits := by decide +kernel
  blkFits := by decide +kernel
  coherent := by decide +kernel
  marker := by decide +kernel
  cursorRange := by decide +kernel

/-- The block of the table of §4.4 is the PRF of its counter. -/
theorem engineN1_inv : EngineInv Cfg.a engineN1 where
  keyFits := by decide +kernel
  ctrFits := by decide +kernel
  blkFits := by decide +kernel
  coherent := by decide +kernel
  marker := by decide +kernel
  cursorRange := by decide +kernel

theorem zeroStaging_inv (arg : Reg) : StagingInv Cfg.a (stagingOf arg Quad.zero Quad.zero 0 0) where
  keyinFits := by show Fits Cfg.a.width.bits 4 Quad.zero; decide +kernel
  ctrinFits := by show Fits Cfg.a.width.bits 4 Quad.zero; decide +kernel

theorem zeroResults_inv : ResultsInv Cfg.a State.reset.res where
  resultRange := by decide +kernel
  boutFits := by decide +kernel
  consumedRange := by decide +kernel

/-- An idle block of CFG-A after V-N1. -/
def idleN1 : State := { State.reset with eng := engineN1 }

/-- An idle block of CFG-A after V-SI1. -/
def idleSI1 : State := { State.reset with eng := engineSI1 }

theorem idleN1_inv : Inv idleN1 where
  engine := engineN1_inv
  staging := zeroStaging_inv 0
  results := zeroResults_inv
  statusPair := by decide
  lastop := by decide
  inFlight := fun _ h => nomatch h
  snapshot := fun _ h => nomatch h

theorem idleSI1_inv : Inv idleSI1 where
  engine := engineSI1_inv
  staging := zeroStaging_inv 0
  results := zeroResults_inv
  statusPair := by decide
  lastop := by decide
  inFlight := fun _ h => nomatch h
  snapshot := fun _ h => nomatch h

/-- A block with a command in flight, V-N2's. -/
def busyN1 : State := accept (encode .next) idleN1

/-- StepKeepsInv: with a command in flight, and the step completes it. -/
theorem witness_StepKeepsInv : Inv busyN1 ∧ seen statusOf (step busyN1) = some 0x08000000 := by
  refine ⟨?_, by decide +kernel⟩
  exact {
    engine := engineN1_inv
    staging := zeroStaging_inv 0
    results := zeroResults_inv
    statusPair := by decide
    lastop := fun h => nomatch h
    inFlight := fun p h => by cases h; rfl
    snapshot := fun p h => by cases h; exact zeroStaging_inv 0 }

/-- ResetEngineIsSeedIntZero, NopCompletes, ClrstClearsDropped (2), PrfApplyCompletes, SeedSeqCompletes: a command in
flight, ARG 0. -/
theorem witness_pending :
    (busyWith Cfg.a zeroStaging (.seedInt false)).pend = some (pendOf (.seedInt false) zeroStaging) ∧
      (pendOf (.seedInt false) zeroStaging).snap.arg = 0 ∧
      (busyWith Cfg.a zeroStaging .nop).pend = some (pendOf .nop zeroStaging) ∧
      (pendOf .nop zeroStaging).cmd = 0x00000000 ∧
      (busyWith Cfg.a zeroStaging .clrst).pend = some (pendOf .clrst zeroStaging) ∧
      (busyWith Cfg.a zeroStaging .prfApply).pend = some (pendOf .prfApply zeroStaging) ∧
      (busyWith Cfg.a zeroStaging .seedSeq).pend = some (pendOf .seedSeq zeroStaging) := by decide +kernel

/-- FailureChangesNothing and FailureRepeats: V-N11 fails, and so does an illegal word. -/
theorem witness_failure :
    seen (fun t => decide (t.status.code ≠ 0x00)) (complete (busyEngine cfgD engineDC7 0 .next)) = some true ∧
      seen (fun t => decide (t.status.code ≠ 0x00)) (complete (busyWord Cfg.a 0x07)) = some true := by decide +kernel

/-- BasePartKept: SEED.INT over a base part of 7 clears it. -/
theorem witness_BasePartKept :
    let s := accept (encode (.seedInt false)) { State.reset with eng := { engineN1 with ctr := ⟨1, 7, 0, 0⟩ } }
    seen (fun t => decide (highPart 32 (ctrSeq Cfg.a t.eng) ≠ highPart 32 (ctrSeq Cfg.a s.eng)))
      (exec (.seedInt false) s) = some true := by decide +kernel

/-- SerialIncrementAgrees, ClrHighbitsClearsAndReports: the whole width is the boundary. -/
theorem witness_traits_widths : 64 ≤ ([0xFFFFFFFF#32, 0xFFFFFFFF#32] : Seq 32).length * 32 := by decide

/-- ExtractionRegimesAgree: the last result of each regime. -/
theorem witness_ExtractionRegimesAgree :
    (8 ∣ 32 ∨ 32 ∣ 8) ∧ 7 * 8 + 8 ≤ ([1#32, 2#32] : Seq 32).length * 32 ∧ (64 ∣ 32 ∨ 32 ∣ 64) ∧
      0 * 64 + 64 ≤ ([1#32, 2#32] : Seq 32).length * 32 ∧ 1 * 32 + 32 ≤ ([1#32, 2#32] : Seq 32).length * 32 := by decide

/-- PackInvertsExtraction: the last of four input words. -/
theorem witness_PackInvertsExtraction :
    0 < 32 ∧ 3 < (pack 64 2 [1#32, 2#32, 3#32, 4#32]).consumed ∧ (3 + 1) * 32 ≤ 2 * 64 := by decide +kernel

/-- MarkerFieldIsKeyTop and EncodedKeyCarriesMarker: the last bit below the field. -/
theorem witness_marker : ([1#32, 2#32] : Seq 32).length = Cfg.a.k ∧ 56 < Cfg.a.kbits - Cfg.a.cbb := by decide +kernel

/-- EncodedKeysOfWindowsDiffer: CFG-A and CFG-D (V-SK8). -/
theorem witness_EncodedKeysOfWindowsDiffer :
    cfgD.toParams = { Cfg.a.toParams with ctrBits := cfgD.ctrBits } ∧ cfgD.ctrBits ≠ Cfg.a.ctrBits := by decide

/-- PrfIsBijection, injectivity: one counter twice. -/
theorem witness_PrfIsBijection :
    ([1#32, 0#32, 0#32, 0#32] : Seq 32).length = Cfg.a.n ∧
      prf Cfg.a [0#32, 0#32] [1#32, 0#32, 0#32, 0#32] = prf Cfg.a [0#32, 0#32] [1#32, 0#32, 0#32, 0#32] :=
  ⟨by decide, rfl⟩

/-- RotationsRotate: the greatest amount, bit and table row. -/
theorem witness_RotationsRotate : 31 < 32 ∧ 7 < 8 := by decide

/-- SeedKeyCompletes: V-SK6, with every bit below the field set and a base. -/
theorem witness_SeedKeyCompletes :
    let stg := stagingOf 0 ⟨5, 0x01FFFFFF, 0, 0⟩ ⟨0, 1, 0, 0⟩ 0 0
    (busyWith Cfg.a stg (.seedKey true)).pend = some (pendOf (.seedKey true) stg) ∧
      markerField Cfg.a (keyOperand Cfg.a stg) = 0 ∧ val (ctrOperand Cfg.a stg) % 2 ^ Cfg.a.ctrBits = 0 := by decide +kernel

/-- SeedIntCompletes: V-SI4 (the greatest ARG of CFG-B) and V-SI9 (a base). -/
theorem witness_SeedIntCompletes :
    let p := pendOf (.seedInt false) (stagingOf 0x03FFFFFF Quad.zero Quad.zero 0 0)
    let q := pendOf (.seedInt true) (stagingOf 5 Quad.zero ⟨0, 9, 0, 0⟩ 0 0)
    (busyWith cfgB p.snap (.seedInt false)).pend = some p ∧ p.snap.arg.toNat < 2 ^ (cfgB.kbits - cfgB.cbb) ∧
      (busyWith Cfg.a q.snap (.seedInt true)).pend = some q ∧ q.snap.arg.toNat < 2 ^ (Cfg.a.kbits - Cfg.a.cbb) ∧
      val (ctrOperand Cfg.a q.snap) % 2 ^ Cfg.a.ctrBits = 0 := by decide +kernel

/-- DirectSeedsReject, SEED.KEY: V-SK7 (bit 25 of word 1, the field's lowest) and V-SK5. -/
theorem witness_DirectSeedsReject_key :
    let p := pendOf (.seedKey true) (stagingOf 0 ⟨5, 0x02000000, 0, 0⟩ ⟨0, 1, 0, 0⟩ 0 0)
    let q := pendOf (.seedKey true) (stagingOf 0 ⟨5, 0x01FFFFFF, 0, 0⟩ ⟨1, 0, 0, 0⟩ 0 0)
    (busyWith Cfg.a p.snap (.seedKey true)).pend = some p ∧ markerField Cfg.a (keyOperand Cfg.a p.snap) ≠ 0 ∧
      (busyWith Cfg.a q.snap (.seedKey true)).pend = some q ∧ markerField Cfg.a (keyOperand Cfg.a q.snap) = 0 ∧
      val (ctrOperand Cfg.a q.snap) % 2 ^ Cfg.a.ctrBits ≠ 0 := by decide +kernel

/-- DirectSeedsReject, SEED.INT: V-SI2 (2^32 at KBITS = 32), V-SI3 (2^26, just in the field), V-SI8 (the base). -/
theorem witness_DirectSeedsReject_int :
    let p := pendOf (.seedInt false) (stagingOf (2 ^ 32) Quad.zero Quad.zero 0 0)
    let q := pendOf (.seedInt false) (stagingOf (2 ^ 26) Quad.zero Quad.zero 0 0)
    let r := pendOf (.seedInt true) (stagingOf 5 Quad.zero ⟨9, 0, 0, 0⟩ 0 0)
    (busyWith cfgB p.snap (.seedInt false)).pend = some p ∧ 2 ^ cfgB.kbits ≤ p.snap.arg.toNat ∧
      (busyWith cfgB q.snap (.seedInt false)).pend = some q ∧ q.snap.arg.toNat < 2 ^ cfgB.kbits ∧
      2 ^ (cfgB.kbits - cfgB.cbb) ≤ q.snap.arg.toNat ∧
      (busyWith Cfg.a r.snap (.seedInt true)).pend = some r ∧ r.snap.arg.toNat < 2 ^ (Cfg.a.kbits - Cfg.a.cbb) ∧
      val (ctrOperand Cfg.a r.snap) % 2 ^ Cfg.a.ctrBits ≠ 0 := by decide +kernel

/-- SeedRangeCompletes: L = 8 not strict, and the strict case of V-SR4. -/
theorem witness_SeedRangeCompletes :
    let p := pendOf (.seedRange false true 8) zeroStaging
    let q := pendOf (.seedRange true false 2) (stagingOf 0 Quad.zero Quad.zero 0x11 1)
    (busyWith Cfg.a p.snap (.seedRange false true 8)).pend = some p ∧ (8 : BitVec 4).toNat ≤ 8 ∧
      (busyWith cfgB q.snap (.seedRange true false 2)).pend = some q ∧ (2 : BitVec 4).toNat ≤ 8 ∧
      val (inputOperand 32 (min (2 : BitVec 4).toNat ((cfgB.kbits + 32 - 1) / 32)) q.snap) < 2 ^ cfgB.kbits := by
  decide +kernel

/-- SeedRangeRejects: L = 9, the least that is too long, and V-SR1. -/
theorem witness_SeedRangeRejects :
    let p := pendOf (.seedRange true true 9) zeroStaging
    let q := pendOf (.seedRange true true 1) (stagingOf 0 Quad.zero Quad.zero 0x0000000500000007 0)
    (busyWith cfgB p.snap (.seedRange true true 9)).pend = some p ∧ 8 < (9 : BitVec 4).toNat ∧
      (busyWith cfgB q.snap (.seedRange true true 1)).pend = some q ∧ (1 : BitVec 4).toNat ≤ 8 ∧
      2 ^ cfgB.kbits ≤ val (inputOperand 64 (min (1 : BitVec 4).toNat ((cfgB.kbits + 64 - 1) / 64)) q.snap) := by
  decide +kernel

/-- RestartCompletes: V-RS2's and V-RS1's bases. -/
theorem witness_RestartCompletes :
    let p := pendOf .restart (stagingOf 0 Quad.zero ⟨4, 0, 0, 0⟩ 0 0)
    let q := pendOf .restart (stagingOf 0 Quad.zero ⟨1, 0, 0, 0⟩ 0 0)
    (busyWith cfgD p.snap .restart).pend = some p ∧ val (ctrOperand cfgD p.snap) % 2 ^ cfgD.ctrBits = 0 ∧
      (busyWith cfgD q.snap .restart).pend = some q ∧ val (ctrOperand cfgD q.snap) % 2 ^ cfgD.ctrBits ≠ 0 := by
  decide +kernel

/-- LoadCompletes: cursor 4 = Nresult, and cursor 0 (V-LD4). -/
theorem witness_LoadCompletes :
    let p := pendOf .load (stagingOf 4 ⟨0x1234, 0x3E000000, 0, 0⟩ Quad.zero 0 0)
    let q := pendOf .load (stagingOf 0 ⟨0x1234, 0x3E000000, 0, 0⟩ ⟨2, 0, 0, 0⟩ 0 0)
    (busyWith Cfg.a p.snap .load).pend = some p ∧ p.snap.arg.toNat = Cfg.a.nresult ∧
      markerField Cfg.a (keyOperand Cfg.a p.snap) = Cfg.a.ctrBits - 1 ∧
      (busyWith Cfg.a q.snap .load).pend = some q ∧ q.snap.arg.toNat < Cfg.a.nresult ∧
      markerField Cfg.a (keyOperand Cfg.a q.snap) = Cfg.a.ctrBits - 1 := by decide +kernel

/-- LoadRejects: V-LD2 (5 = Nresult + 1) and V-LD3 (marker 1, not 31). -/
theorem witness_LoadRejects :
    let p := pendOf .load (stagingOf 5 Quad.zero Quad.zero 0 0)
    let q := pendOf .load (stagingOf 1 ⟨0, 0x02000000, 0, 0⟩ Quad.zero 0 0)
    (busyWith Cfg.a p.snap .load).pend = some p ∧ p.snap.arg.toNat = Cfg.a.nresult + 1 ∧
      (busyWith Cfg.a q.snap .load).pend = some q ∧ q.snap.arg.toNat ≤ Cfg.a.nresult ∧
      markerField Cfg.a (keyOperand Cfg.a q.snap) ≠ Cfg.a.ctrBits - 1 := by decide +kernel

/-- LoadOfSavedStateRestores: the state after V-N1 into a block after reset. -/
theorem witness_LoadOfSavedStateRestores :
    Inv idleN1 ∧ State.reset.cfg = idleN1.cfg ∧ State.reset.pend = none ∧
      idleN1.eng.cursor.toNat < idleN1.cfg.nresult := ⟨idleN1_inv, by decide, by decide, by decide +kernel⟩

/-- NextFreshCompletes: V-N2, on a coherent block. -/
theorem witness_NextFreshCompletes :
    busyN1.pend = some (pendOf .next zeroStaging) ∧ busyN1.eng.cursor.toNat < busyN1.cfg.nresult ∧
      EngineInv busyN1.cfg busyN1.eng := ⟨by decide +kernel, by decide +kernel, engineN1_inv⟩

/-- NextExhaustedCompletes: the last block of CFG-D's window, low part 2 to 3. -/
theorem witness_NextExhaustedCompletes :
    let s := busyEngine cfgD { engineDC7 with ctr := ⟨2, 0, 0, 0⟩ } 0 .next
    s.pend.isSome = true ∧ s.eng.cursor.toNat = s.cfg.nresult ∧
      val (ctrSeq s.cfg s.eng) % 2 ^ s.cfg.ctrBits + 1 < 2 ^ s.cfg.ctrBits := by decide +kernel

/-- DiscardCompletes: V-DC7, 12 from reset, whose 3 increments just stay inside the window: t = 16, a block boundary. -/
theorem witness_DiscardCompletes :
    let s := busyEngine cfgD (Engine.reset cfgD) 12 .discard
    let t := s.eng.cursor.toNat + (12 : Reg).toNat
    s.pend = some (pendOf .discard (stagingOf 12 Quad.zero Quad.zero 0 0)) ∧ t % s.cfg.nresult = 0 ∧
      s.cfg.nresult ≤ t ∧
      val (ctrSeq s.cfg s.eng) % 2 ^ s.cfg.ctrBits + (t / s.cfg.nresult - 1) < 2 ^ s.cfg.ctrBits := by decide +kernel

/-- CounterSpaceExhausted, where it does not fail: the hypotheses right after reset, whose window has room. -/
theorem witness_CounterSpaceExhausted_room :
    let s := busyEngine cfgD (Engine.reset cfgD) 12 .next
    s.pend.isSome = true ∧ s.eng.cursor.toNat = s.cfg.nresult ∧
      ¬2 ^ s.cfg.ctrBits ≤ val (ctrSeq s.cfg s.eng) % 2 ^ s.cfg.ctrBits + 1 := by decide +kernel

/-- CounterSpaceExhausted: V-N11, and V-DC8, 13 from reset, the least discard that fails: t = 17, no boundary. -/
theorem witness_CounterSpaceExhausted :
    let s := busyEngine cfgD engineDC7 0 .next
    let u := busyEngine cfgD (Engine.reset cfgD) 13 .discard
    let t := u.eng.cursor.toNat + (13 : Reg).toNat
    s.pend.isSome = true ∧ s.eng.cursor.toNat = s.cfg.nresult ∧
      2 ^ s.cfg.ctrBits ≤ val (ctrSeq s.cfg s.eng) % 2 ^ s.cfg.ctrBits + 1 ∧
      u.pend = some (pendOf .discard (stagingOf 13 Quad.zero Quad.zero 0 0)) ∧ t % u.cfg.nresult ≠ 0 ∧
      2 ^ u.cfg.ctrBits ≤ val (ctrSeq u.cfg u.eng) % 2 ^ u.cfg.ctrBits + t / u.cfg.nresult := by decide +kernel

/-- DiscardEqualsDraws and DiscardAdds: the idle block after V-N1, with 5 discards that succeed. -/
theorem witness_DiscardEqualsDraws :
    idleN1.pend = none ∧ Inv idleN1 ∧ (2 : Reg).toNat + (3 : Reg).toNat < 2 ^ 64 ∧
      seen (fun t => decide (Ok t)) (discards 5 idleN1) = some true ∧ (draws 2 idleN1).isSome = true :=
  ⟨rfl, idleN1_inv, by decide, by decide +kernel, by decide +kernel⟩

/-- ExhaustionBoundary and OutputStream: right after V-SI1, with one draw made. -/
theorem witness_OutputStream :
    idleSI1.pend = none ∧ Inv idleSI1 ∧ idleSI1.eng.cursor.toNat = idleSI1.cfg.nresult ∧
      lowPart idleSI1.cfg.ctrBits (ctrSeq idleSI1.cfg idleSI1.eng) = 0 ∧ (draws 1 idleSI1).isSome = true ∧
      1 < (2 ^ idleSI1.cfg.ctrBits - 1) * idleSI1.cfg.nresult :=
  ⟨rfl, idleSI1_inv, by decide +kernel, by decide +kernel, by decide +kernel, by decide +kernel⟩

/-- CFG-D after reset, whose window has 3 blocks of 4 results. -/
theorem resetD_inv : Inv (State.resetOf cfgD) where
  engine := {
    keyFits := by decide +kernel
    ctrFits := by decide +kernel
    blkFits := by decide +kernel
    coherent := by decide +kernel
    marker := by decide +kernel
    cursorRange := by decide +kernel }
  staging := { keyinFits := by decide +kernel, ctrinFits := by decide +kernel }
  results := { resultRange := by decide +kernel, boutFits := by decide +kernel, consumedRange := by decide +kernel }
  statusPair := by decide
  lastop := by decide
  inFlight := fun _ h => nomatch h
  snapshot := fun _ h => nomatch h

/-- DiscardEqualsDraws, DiscardAdds, ExhaustionBoundary at the boundary of §4.6: 12 draws succeed and the 13th fails. -/
theorem witness_ExhaustionBoundary :
    (State.resetOf cfgD).pend = none ∧ Inv (State.resetOf cfgD) ∧
      (State.resetOf cfgD).eng.cursor.toNat = cfgD.nresult ∧
      lowPart cfgD.ctrBits (ctrSeq cfgD (State.resetOf cfgD).eng) = 0 ∧ (2 ^ cfgD.ctrBits - 1) * cfgD.nresult = 12 ∧
      (draws 12 (State.resetOf cfgD)).isSome = true ∧ draws 13 (State.resetOf cfgD) = none ∧
      (6 : Reg).toNat + (7 : Reg).toNat = 13 :=
  ⟨rfl, resetD_inv, by decide +kernel, by decide +kernel, by decide +kernel, by decide +kernel, by decide +kernel,
    by decide⟩

end Sys2Proof.Tests
end

section
/-! PROOFS. Groups of registers: when one holds a sequence, and the registers it holds (R36). -/
namespace Sys2Proof.Machine

theorem quad_ext {q r : Quad} (h : ∀ i : Fin 4, quadGet q i = quadGet r i) : q = r := by
  obtain ⟨q0, q1, q2, q3⟩ := q
  obtain ⟨r0, r1, r2, r3⟩ := r
  have h0 : q0 = r0 := h 0
  have h1 : q1 = r1 := h 1
  have h2 : q2 = r2 := h 2
  have h3 : q3 = r3 := h 3
  rw [h0, h1, h2, h3]

@[simp] theorem quadGet_zero (i : Fin 4) : quadGet Quad.zero i = 0 := by fin_cases i <;> rfl

/-- Reading a group as n words of v bits and holding them again keeps v bits of its first n registers and clears the
others. -/
theorem quadGet_hold_seqOf (v n : Nat) (q : Quad) (i : Fin 4) :
    quadGet (hold (seqOf v n q)) i = if i.val < n then ((quadGet q i).setWidth v).setWidth 64 else 0 := by
  have hget : quadGet (hold (seqOf v n q)) i = ((seqOf v n q).map (BitVec.setWidth 64)).getD i.val 0 := by
    fin_cases i <;> rfl
  have hreg : (quadRegs q)[i.val]? = some (quadGet q i) := by fin_cases i <;> rfl
  rw [hget, seqOf, List.getD_eq_getElem?_getD, List.getElem?_map, List.getElem?_map, List.getElem?_take, hreg]
  split <;> simp

theorem fits_iff {v n : Nat} {q : Quad} :
    Fits v n q ↔
      ∀ i : Fin 4, quadGet q i = if i.val < n then ((quadGet q i).setWidth v).setWidth 64 else 0 := by
  constructor
  · intro h i
    rw [← quadGet_hold_seqOf, show hold (seqOf v n q) = q from h]
  · intro h
    exact quad_ext fun i => by rw [quadGet_hold_seqOf, ← h i]

theorem fits_zero (v n : Nat) : Fits v n Quad.zero := fits_iff.mpr fun i => by simp

theorem fits_hold {v n : Nat} {x : Seq v} (hn : n ≤ 4) (hv : v ≤ 64) (hx : x.length = n) : Fits v n (hold x) := by
  rw [Fits, seqOf_hold hn hv hx]

theorem fits_hold_prf (c : Cfg) (key ctr : Seq c.width.bits) : Fits c.width.bits c.m (hold (prf c key ctr)) :=
  fits_hold c.n_le c.v_le (prf_length c key ctr)

theorem toNat_wordOf (c : Cfg) (x : Reg) : (wordOf c x).toNat = x.toNat % 2 ^ c.v := by
  have hv : 2 ^ c.v ≤ 2 ^ 64 := Nat.pow_le_pow_right (by omega) c.v_le
  have hx : x.toNat % 2 ^ c.v < 2 ^ c.v := Nat.mod_lt _ (Nat.two_pow_pos _)
  rw [wordOf, BitVec.toNat_setWidth, BitVec.toNat_setWidth]
  exact Nat.mod_eq_of_lt (lt_of_lt_of_le hx hv)

@[simp] theorem wordOf_wordOf (c : Cfg) (x : Reg) : wordOf c (wordOf c x) = wordOf c x := by
  apply BitVec.eq_of_toNat_eq
  rw [toNat_wordOf, toNat_wordOf, Nat.mod_mod]

/-- Storing V bits of a value in a register of a group of four words keeps the group one of V-bit words (R36). -/
theorem fits_quadSet {c : Cfg} {q : Quad} (h : Fits c.width.bits 4 q) (n : Fin 4) (x : Reg) :
    Fits c.width.bits 4 (quadSet q n (wordOf c x)) := by
  refine fits_iff.mpr fun i => ?_
  rw [if_pos i.isLt, quadGet_quadSet]
  split
  · exact (wordOf_wordOf c x).symm
  · have hi := fits_iff.mp h i
    rwa [if_pos i.isLt] at hi

end Sys2Proof.Machine
end

section
/-! PROOFS. What a command that commits has staged, and how each such engine keeps the engine's invariants (R34). -/
namespace Sys2Proof.Machine

/-- What each command stages when it commits, with the checks it has then passed: `commandBody` as a relation, one
constructor for each command (`commandBody_eq_ok_iff`). -/
inductive Stages (c : Cfg) (e : Engine) (r : Results) (snap : Staging) : Instr → Engine × Results → Prop where
  | nop : Stages c e r snap .nop (e, r)
  | clrst : Stages c e r snap .clrst (e, r)
  | prfApply :
    Stages c e r snap .prfApply (e, { r with bout := hold (prf c (keyOperand c snap) (ctrOperand c snap)) })
  | seedKey (b : Bool) (hkey : keyRejected c (keyOperand c snap) = false)
      (hbase : baseRejected c (baseOperand c b snap) = false) :
    Stages c e r snap (.seedKey b) (seedEngine c (keyOperand c snap) (baseOperand c b snap) e, r)
  | seedInt (b : Bool) (key : Seq c.width.bits) (hint : makeFromInt c.width.bits c.k snap.arg.toNat = some key)
      (hkey : keyRejected c key = false) (hbase : baseRejected c (baseOperand c b snap) = false) :
    Stages c e r snap (.seedInt b) (seedEngine c key (baseOperand c b snap) e, r)
  | seedRange (strict wide : Bool) (len : BitVec 4) (hlen : len.toNat ≤ 8)
      (hstrict : strict = true → (packedRange c wide len.toNat snap).leftover = 0) :
    Stages c e r snap (.seedRange strict wide len)
      (seedEngine c (packedRange c wide len.toNat snap).target (makeZero c.width.bits c.n) e,
        { r with consumed := BitVec.ofNat 4 (packedRange c wide len.toNat snap).consumed })
  | seedSeq :
    Stages c e r snap .seedSeq
      (seedEngine c (makeFromSeedseq c.width.bits c.k (inputOperand 32 (c.kbits / 32) snap))
          (makeZero c.width.bits c.n) e,
        { r with consumed := BitVec.ofNat 4 (c.kbits / 32) })
  | restart (hbase : baseRejected c (ctrOperand c snap) = false) :
    Stages c e r snap .restart
      ({ e with ctr := hold (ctrOperand c snap), cursor := BitVec.ofNat 9 c.nresult }, r)
  | load (hcursor : snap.arg.toNat ≤ c.nresult) (hmarker : markerField c (keyOperand c snap) = c.ctrBits - 1) :
    Stages c e r snap .load (loadEngine c snap.arg.toNat (ctrOperand c snap) (keyOperand c snap) e, r)
  | next (f : Engine) (hrefill : refill c e = some f) :
    Stages c e r snap .next (advance f, { r with result := resultRegs (drawn c f) })
  | discard (f : Engine) (hdiscard : discardEngine c snap.arg.toNat e = some f) :
    Stages c e r snap .discard (f, r)

theorem makeFromInt_length {v n a : Nat} {x : Seq v} (h : makeFromInt v n a = some x) : x.length = n := by
  unfold makeFromInt at h
  split at h
  · cases h
  · cases h; simp

/-- A check that comes before the rest of a command's body has passed when the body commits. -/
theorem ok_of_check {P : Prop} [Decidable P] {err : CmdError} {rest : Except CmdError (Engine × Results)}
    {x : Engine × Results} (h : (if P then .error err else rest) = .ok x) : ¬P ∧ rest = .ok x := by
  split at h
  · cases h
  · exact ⟨‹¬P›, h⟩

theorem stages_of_commandBody {c : Cfg} {e : Engine} {r : Results} {snap : Staging} {i : Instr}
    {x : Engine × Results} (h : commandBody c e r snap i = .ok x) : Stages c e r snap i x := by
  cases i <;> simp only [commandBody] at h
  case nop => cases h; exact .nop
  case clrst => cases h; exact .clrst
  case prfApply => cases h; exact .prfApply
  case seedSeq => cases h; exact .seedSeq
  case seedKey b =>
    obtain ⟨hkey, h⟩ := ok_of_check h
    obtain ⟨hbase, h⟩ := ok_of_check h
    cases h; exact .seedKey b (by simpa using hkey) (by simpa using hbase)
  case seedInt b =>
    split at h
    · cases h
    · rename_i key hint
      obtain ⟨hkey, h⟩ := ok_of_check h
      obtain ⟨hbase, h⟩ := ok_of_check h
      cases h; exact .seedInt b key hint (by simpa using hkey) (by simpa using hbase)
  case seedRange strict wide len =>
    obtain ⟨hlen, h⟩ := ok_of_check h
    obtain ⟨hstrict, h⟩ := ok_of_check h
    cases h; exact .seedRange strict wide len (by omega) (by simpa using hstrict)
  case restart =>
    obtain ⟨hbase, h⟩ := ok_of_check h
    cases h; exact .restart (by simpa using hbase)
  case load =>
    obtain ⟨hcursor, h⟩ := ok_of_check h
    obtain ⟨hmarker, h⟩ := ok_of_check h
    cases h; exact .load (by omega) (by simpa using hmarker)
  case next =>
    split at h
    · cases h
    · rename_i f hrefill
      cases h; exact .next f hrefill
  case discard =>
    split at h
    · cases h
    · rename_i f hdiscard
      cases h; exact .discard f hdiscard

theorem commandBody_of_stages {c : Cfg} {e : Engine} {r : Results} {snap : Staging} {i : Instr}
    {x : Engine × Results} (h : Stages c e r snap i x) : commandBody c e r snap i = .ok x := by
  cases h with
  | nop | clrst | prfApply | seedSeq => rfl
  | seedKey b hkey hbase => simp [commandBody, hkey, hbase]
  | seedInt b key hint hkey hbase => simp [commandBody, hint, hkey, hbase]
  | seedRange strict wide len hlen hstrict => simpa [commandBody, Nat.not_lt.mpr hlen] using hstrict
  | restart hbase => simp [commandBody, hbase]
  | load hcursor hmarker => simp [commandBody, Nat.not_lt.mpr hcursor, hmarker]
  | next f hrefill => simp [commandBody, hrefill]
  | discard f hdiscard => simp [commandBody, hdiscard]

theorem commandBody_eq_ok_iff {c : Cfg} {e : Engine} {r : Results} {snap : Staging} {i : Instr}
    {x : Engine × Results} : commandBody c e r snap i = .ok x ↔ Stages c e r snap i x :=
  ⟨stages_of_commandBody, commandBody_of_stages⟩

/-- What a command does (R300): it fails, or it commits what `Stages` says. -/
theorem exec_next_cases {i : Instr} {s t : State} (h : exec i s = .next t) :
    ∃ p, s.pend = some p ∧
      ((∃ x, Stages s.cfg s.eng s.res p.snap i x ∧ t = commit p (staged s x)) ∨ ∃ e, t = failWith p e s) := by
  obtain ⟨p, hp, ⟨x, hx, ht⟩ | ⟨e, -, ht⟩⟩ := exec_eq_next.mp h
  · exact ⟨p, hp, .inl ⟨x, commandBody_eq_ok_iff.mp hx, ht⟩⟩
  · exact ⟨p, hp, .inr ⟨e, ht⟩⟩

/-! ### The engine -/

/-- An engine whose counter places hold an N-word sequence keeps the invariants when its key carries the marker and its
block is the PRF's whenever the cursor says it is in use (R34). -/
theorem engineInv_of_ctr {c : Cfg} {key blk : Quad} {ctr : Seq c.width.bits} {cursor : Nat}
    (hkey : Fits c.width.bits c.k key)
    (hmarker : markerField c (seqOf c.width.bits c.k key) = c.ctrBits - 1) (hctr : ctr.length = c.n)
    (hblk : Fits c.width.bits c.m blk) (hcursor : cursor ≤ c.nresult)
    (hcoherent : cursor < c.nresult → blk = hold (prf c (seqOf c.width.bits c.k key) ctr)) :
    EngineInv c { key := key, ctr := hold ctr, blk := blk, cursor := BitVec.ofNat 9 cursor } where
  keyFits := hkey
  ctrFits := fits_hold c.n_le c.v_le hctr
  blkFits := hblk
  coherent h := by
    rw [c.toNat_cursor cursor hcursor] at h
    simp only [blkSeq, keySeq, ctrSeq]
    rw [hcoherent h, seqOf_hold_prf, seqOf_hold c.n_le c.v_le hctr]
  marker := hmarker
  cursorRange := by rw [c.toNat_cursor cursor hcursor]; exact hcursor

theorem markerField_encKey (c : Cfg) (key : Seq c.width.bits) (hk : key.length = c.k) :
    markerField c (encKey c key) = c.ctrBits - 1 := by
  rw [markerField_eq_div c _ (by simpa using hk), val_encKey c key hk, Nat.add_mul_div_left _ _ (Nat.two_pow_pos _),
    Nat.div_eq_of_lt (Nat.mod_lt _ (Nat.two_pow_pos _)), Nat.zero_add]

theorem seedEngine_inv {c : Cfg} {key base : Seq c.width.bits} {e : Engine} (hk : key.length = c.k)
    (hb : base.length = c.n) (hblk : Fits c.width.bits c.m e.blk) : EngineInv c (seedEngine c key base e) := by
  have hlen : (encKey c key).length = c.k := by simpa using hk
  refine engineInv_of_ctr (fits_hold c.k_le c.v_le hlen) ?_ hb hblk (Nat.le_refl _)
    (fun h => absurd h (Nat.lt_irrefl _))
  rw [seqOf_hold c.k_le c.v_le hlen, markerField_encKey c key hk]

theorem restartEngine_inv {c : Cfg} {base : Seq c.width.bits} {e : Engine} (h : EngineInv c e)
    (hb : base.length = c.n) : EngineInv c { e with ctr := hold base, cursor := BitVec.ofNat 9 c.nresult } :=
  engineInv_of_ctr h.keyFits h.marker hb h.blkFits (Nat.le_refl _) (fun hlt => absurd hlt (Nat.lt_irrefl _))

/-- The block a command recomputes or leaves has M words either way. -/
theorem fits_blk_ite {c : Cfg} {e : Engine} (h : EngineInv c e) (P : Prop) [Decidable P] (key ctr : Seq c.width.bits) :
    Fits c.width.bits c.m (if P then hold (prf c key ctr) else e.blk) := by
  split
  · exact fits_hold_prf c key ctr
  · exact h.blkFits

theorem loadEngine_inv {c : Cfg} {cursor : Nat} {ctr key : Seq c.width.bits} {e : Engine} (h : EngineInv c e)
    (hcursor : cursor ≤ c.nresult) (hmarker : markerField c key = c.ctrBits - 1) (hk : key.length = c.k)
    (hc : ctr.length = c.n) : EngineInv c (loadEngine c cursor ctr key e) := by
  have hkey : seqOf c.width.bits c.k (hold key) = key := seqOf_hold c.k_le c.v_le hk
  refine engineInv_of_ctr (fits_hold c.k_le c.v_le hk) (by rw [hkey, hmarker]) hc (fits_blk_ite h _ _ _) hcursor ?_
  intro hlt
  rw [if_pos hlt, hkey]

/-- A refilled engine has a result left in its block (R270). -/
theorem refill_inv {c : Cfg} {e f : Engine} (h : EngineInv c e) (hf : refill c e = some f) :
    EngineInv c f ∧ f.cursor.toNat < c.nresult := by
  obtain ⟨hne, rfl⟩ | ⟨-, ctr, hincr, rfl⟩ := refill_eq_some hf
  · have := h.cursorRange
    exact ⟨h, by omega⟩
  · obtain ⟨-, -, hlen, -⟩ := incr_ctrSeq hincr
    exact ⟨engineInv_of_ctr h.keyFits h.marker hlen (fits_hold_prf c _ _) (Nat.zero_le _) (fun _ => rfl),
      c.nresult_pos⟩

theorem toNat_advance_cursor {c : Cfg} {e : Engine} (hlt : e.cursor.toNat < c.nresult) :
    (advance e).cursor.toNat = e.cursor.toNat + 1 := c.toNat_cursor _ hlt

theorem advance_inv {c : Cfg} {e : Engine} (h : EngineInv c e) (hlt : e.cursor.toNat < c.nresult) :
    EngineInv c (advance e) where
  keyFits := h.keyFits
  ctrFits := h.ctrFits
  blkFits := h.blkFits
  coherent _ := h.coherent hlt
  marker := h.marker
  cursorRange := by rw [toNat_advance_cursor hlt]; exact hlt

theorem incr_zero {v h : Nat} {x y : Seq v} (hxy : incr h x 0 = some y) : y = x := by
  obtain ⟨-, rfl⟩ := incr_eq_some_iff.mp hxy
  rw [Nat.add_zero, high_low, wordsOf_val]

/-- DISCARD keeps the cache coherent: it recomputes the block when the counter moved, and a discard inside the block
keeps counter and block (R271). -/
theorem discardEngine_inv {c : Cfg} {n : Nat} {e f : Engine} (h : EngineInv c e)
    (hf : discardEngine c n e = some f) : EngineInv c f := by
  obtain ⟨ctr, hincr, hkey, hctr, hcursor, hblk⟩ := discardEngine_eq_some hf
  obtain ⟨hle, -, -, hstay⟩ := discardSplit_spec (cur := e.cursor.toNat) (n := n) c.nresult_pos
  obtain ⟨-, -, hlen, -⟩ := incr_ctrSeq hincr
  generalize (discardSplit c.nresult e.cursor.toNat n).1 = cursor at *
  generalize (discardSplit c.nresult e.cursor.toNat n).2 = k at *
  obtain ⟨fkey, fctr, fblk, fcursor⟩ := f
  dsimp only at hkey hctr hcursor hblk
  subst hkey hctr hcursor hblk
  refine engineInv_of_ctr h.keyFits h.marker hlen (fits_blk_ite h _ _ _) hle fun hlt => ?_
  split
  · rfl
  · have hk : k = 0 := by omega
    subst hk
    have hold_lt : e.cursor.toNat < c.nresult := by have := hstay rfl; omega
    rw [incr_zero hincr, ← keySeq, ← h.coherent hold_lt]
    exact h.blkFits.symm

/-! ### The results -/

theorem resultRegs_range {w : Nat} (r : BitVec w) : val (quadRegs (resultRegs r)) < 2 ^ w := by
  rw [resultRegs, quadRegs_hold_four, val_wordsOf]
  exact lt_of_le_of_lt (Nat.mod_le _ _) r.isLt

theorem packedRange_consumed_le (c : Cfg) (wide : Bool) {len : Nat} (h : len ≤ 8) (snap : Staging) :
    (packedRange c wide len snap).consumed ≤ 8 := by
  cases wide <;> simp only [packedRange, pack_inputOperand _ _ _ len h, if_true, Bool.false_eq_true, if_false] <;> omega

theorem packedRange_target_length (c : Cfg) (wide : Bool) (len : Nat) (snap : Staging) :
    (packedRange c wide len snap).target.length = c.k := by
  cases wide <;> simp [packedRange, pack]

theorem makeFromSeedseq_length (v n : Nat) (g : Seq 32) : (makeFromSeedseq v n g).length = n := by
  simp [makeFromSeedseq, packReport, pack]

theorem consumed_range {n : Nat} (h : n ≤ 8) : (BitVec.ofNat 4 n).toNat ≤ 8 := by
  rw [BitVec.toNat_ofNat]; exact (Nat.mod_le _ _).trans h

/-- Every command that commits keeps the engine's invariants and the ranges of the result registers (R34, R302). -/
theorem stages_inv {c : Cfg} {e : Engine} {r : Results} {snap : Staging} {i : Instr} {x : Engine × Results}
    (h : Stages c e r snap i x) (he : EngineInv c e) (hr : ResultsInv c r) : EngineInv c x.1 ∧ ResultsInv c x.2 := by
  cases h with
  | nop => exact ⟨he, hr⟩
  | clrst => exact ⟨he, hr⟩
  | prfApply => exact ⟨he, { hr with boutFits := fits_hold_prf c _ _ }⟩
  | seedKey b => exact ⟨seedEngine_inv (by simp) (by simp) he.blkFits, hr⟩
  | seedInt b key hint => exact ⟨seedEngine_inv (makeFromInt_length hint) (by simp) he.blkFits, hr⟩
  | seedRange strict wide len hlen =>
    exact ⟨seedEngine_inv (packedRange_target_length ..) (by simp) he.blkFits,
      { hr with consumedRange := consumed_range (packedRange_consumed_le c wide hlen snap) }⟩
  | seedSeq =>
    exact ⟨seedEngine_inv (makeFromSeedseq_length ..) (by simp) he.blkFits,
      { hr with consumedRange := consumed_range c.seedSeq_words.1 }⟩
  | restart => exact ⟨restartEngine_inv he (by simp), hr⟩
  | load hcursor hmarker => exact ⟨loadEngine_inv he hcursor hmarker (by simp) (by simp), hr⟩
  | next f hrefill =>
    obtain ⟨hf, hlt⟩ := refill_inv he hrefill
    exact ⟨advance_inv hf hlt, { hr with resultRange := resultRegs_range _ }⟩
  | discard f hdiscard => exact ⟨discardEngine_inv he hdiscard, hr⟩

end Sys2Proof.Machine
end

section
/-! PROOFS. Reset establishes the invariant, and every step keeps it (R34, R56, R302, R341). -/
namespace Sys2Proof.Machine

/-! ### Reset -/

/-- The reset key is the encoding of the zero key (R56, R231). -/
theorem resetKey_eq (c : Cfg) : resetKey c = hold (encKey c (makeZero c.width.bits c.k)) := by
  have hclr : (clrHighbits c.cbb (makeZero c.width.bits c.k)).1 = makeZero c.width.bits c.k := by
    rw [clrHighbits, val_makeZero, Nat.zero_mod, ← val_makeZero c.width.bits c.k]
    exact wordsOf_val _
  have hmodify : (makeZero c.width.bits c.k).modify (c.k - 1) (· ||| markerBits c) =
      (makeZero c.width.bits c.k).set (c.k - 1) (markerBits c) := by
    rcases c.k_cases with h | h | h <;> rw [h] <;> simp [makeZero, List.replicate]
  rw [resetKey, encKey, hclr, hmodify]

/-- The engine after reset is a seeded one: zero key and base, over a zero block (R341). -/
theorem engineReset_eq (c : Cfg) (e : Engine) :
    { Engine.reset c with blk := e.blk } =
      seedEngine c (makeZero c.width.bits c.k) (makeZero c.width.bits c.n) e := by
  rw [seedEngine, ← resetKey_eq, hold_makeZero]
  rfl

theorem engineReset_inv (c : Cfg) : EngineInv c (Engine.reset c) := by
  have h : Engine.reset c = _ := engineReset_eq c (Engine.reset c)
  rw [h]
  exact seedEngine_inv (by simp) (by simp) (fits_zero _ _)

theorem inv_resetOf (c : Cfg) : Inv (State.resetOf c) where
  engine := engineReset_inv c
  staging := { keyinFits := fits_zero _ _, ctrinFits := fits_zero _ _ }
  results := {
    resultRange := Nat.two_pow_pos _
    boutFits := fits_zero _ _
    consumedRange := Nat.zero_le _ }
  statusPair := by simp [State.resetOf, statusPairs]
  lastop _ := by simp only [State.resetOf]; decide
  inFlight _ h := nomatch h
  snapshot _ h := nomatch h

/-! ### The steps -/

/-- The invariant says nothing about the model's own fields. -/
theorem Inv.withWorld {s : State} (h : Inv s) (inputs : List Event) (reads : List (Index × Reg)) :
    Inv { s with inputs := inputs, reads := reads } :=
  ⟨h.engine, h.staging, h.results, h.statusPair, h.lastop, h.inFlight, h.snapshot⟩

/-- The end of a command keeps the invariant when its writes and its status do (R303, R304). -/
theorem Inv.finish {s : State} (h : Inv s) {p : Pending} (hp : s.pend = some p) {e : Engine} {r : Results}
    {code detail : BitVec 8} (he : EngineInv s.cfg e) (hr : ResultsInv s.cfg r)
    (hpair : (code, detail) ∈ statusPairs) : Inv (finish p code detail { s with eng := e, res := r }) where
  engine := he
  staging := h.staging
  results := hr
  statusPair := hpair
  lastop _ := congrArg opField (h.inFlight p hp)
  inFlight _ hq := nomatch hq
  snapshot _ hq := nomatch hq

theorem Inv.failWith {s : State} (h : Inv s) {p : Pending} (hp : s.pend = some p) (e : CmdError) :
    Inv (failWith p e s) :=
  h.finish hp h.engine h.results (errorPair_mem e)

theorem exec_keeps_inv {i : Instr} {s t : State} (h : Inv s) (ht : exec i s = .next t) : Inv t := by
  obtain ⟨p, hp, ⟨x, hx, rfl⟩ | ⟨e, rfl⟩⟩ := exec_next_cases ht
  · obtain ⟨he, hr⟩ := stages_inv hx h.engine h.results
    exact h.finish hp he hr (by simp [statusPairs])
  · exact h.failWith hp e

theorem complete_keeps_inv {s t : State} (h : Inv s) (ht : complete s = .next t) : Inv t := by
  obtain ⟨p, hp, ⟨i, -, hexec⟩ | ⟨e, -, rfl⟩⟩ := complete_eq_next.mp ht
  · exact exec_keeps_inv h hexec
  · exact h.failWith hp _

theorem accept_keeps_inv {s : State} (h : Inv s) (cw : Reg) : Inv (accept cw s) where
  engine := h.engine
  staging := h.staging
  results := h.results
  statusPair := h.statusPair
  lastop hp := nomatch hp
  inFlight p hp := by cases hp; rfl
  snapshot p hp := by cases hp; exact h.staging

/-- A write to a word register stores V bits (R36). -/
theorem regWrite_keeps_staging {s : State} (h : StagingInv s.cfg s.stg) (i : Index) (x : Reg) :
    StagingInv s.cfg (regWrite i x s).stg := by
  unfold regWrite
  cases regName i <;> simp only [writeName]
  case keyin n => exact { h with keyinFits := fits_quadSet h.keyinFits n x }
  case ctrin n => exact { h with ctrinFits := fits_quadSet h.ctrinFits n x }
  case cmd => unfold writeCmd; split <;> exact h
  case arg => exact ⟨h.keyinFits, h.ctrinFits⟩
  case din n => exact ⟨h.keyinFits, h.ctrinFits⟩
  all_goals exact h

theorem regWrite_keeps_inv {s : State} (h : Inv s) (i : Index) (x : Reg) : Inv (regWrite i x s) := by
  have hstg := regWrite_keeps_staging h.staging i x
  obtain heq | ⟨stg, heq⟩ | ⟨-, heq⟩ | ⟨-, heq⟩ := regWrite_cases i x s <;> rw [heq] at hstg ⊢
  · exact h
  · exact { h with staging := hstg }
  · exact accept_keeps_inv h x
  · exact { h with }

theorem step_keeps_inv {s t : State} (h : Inv s) (ht : step s = .next t) : Inv t := by
  obtain ⟨-, hc | rfl⟩ | ⟨e, rest, -, hcase⟩ := step_eq_next ht
  · exact complete_keeps_inv h hc
  · exact h
  · have h' : Inv { s with inputs := rest } := h.withWorld rest s.reads
    obtain ⟨i, rfl⟩ | ⟨i, x, rfl⟩ | ⟨-, hc⟩ | ⟨-, rfl⟩ := hcase
    · exact h'.withWorld _ _
    · exact regWrite_keeps_inv h' i x
    · exact complete_keeps_inv h' hc
    · exact (inv_resetOf s.cfg).withWorld rest s.reads

/-! ### The obligations -/

/-- Settles O21: the invariant over each thing a step can do, and under a Complete over what each command stages. -/
theorem stepKeepsInv : Obligations.StepKeepsInv := fun _ _ h ht => step_keeps_inv h ht

/-- Settles O20: the reset engine is a seeded one, and all else is zero. -/
theorem resetEstablishesInv : Obligations.ResetEstablishesInv := ⟨inv_resetOf, inv_resetOf Cfg.a⟩

end Sys2Proof.Machine
end

section
/-! PROOFS. What every command leaves and reads; the reset engine as the one SEED.INT of 0 gives; NEXT. -/
namespace Sys2Proof.Machine

/-! ### All commands -/

theorem refill_key {c : Cfg} {e f : Engine} (h : refill c e = some f) : f.key = e.key := by
  obtain ⟨-, rfl⟩ | ⟨-, ctr, -, rfl⟩ := refill_eq_some h <;> rfl

theorem discardEngine_key {c : Cfg} {n : Nat} {e f : Engine} (h : discardEngine c n e = some f) : f.key = e.key := by
  obtain ⟨ctr, -, hkey, -⟩ := discardEngine_eq_some h
  exact hkey

/-- Settles O26: each command stages changes of the registers the map lists for it, and a failure stages none. -/
theorem writtenByTheMap : Obligations.WrittenByTheMap := by
  intro i s t h
  obtain ⟨p, -, ⟨⟨e, r⟩, hx, rfl⟩ | ⟨err, rfl⟩⟩ := exec_next_cases h
  · cases hx with
    | next f hrefill => simp [staged, refill_key hrefill]
    | discard f hdiscard => simp [staged, discardEngine_key hdiscard]
    | _ => simp [staged]
  · simp

/-- Settles O23: the end of a command is `commit` or `failWith`, which write STATUS and PEND. -/
theorem commandFrame : Obligations.CommandFrame := by
  intro i s t h
  obtain ⟨p, hp, ⟨x, -, rfl⟩ | ⟨err, rfl⟩⟩ := exec_next_cases h
  · exact ⟨rfl, rfl, rfl, rfl, rfl, rfl, rfl, by simp [statusPairs], p, hp, rfl⟩
  · exact ⟨rfl, rfl, rfl, rfl, rfl, rfl, rfl, errorPair_mem err, p, hp, rfl⟩

/-- Settles O13: the body of a command is a function of configuration, engine, results and snapshot alone. -/
theorem outcomeIndependentOfStaging : Obligations.OutcomeIndependentOfStaging := by
  intro i s t stg h
  obtain ⟨p, hp, ⟨x, hx, rfl⟩ | ⟨err, herr, rfl⟩⟩ := exec_eq_next.mp h
  · exact exec_ok (s := { s with stg := stg }) hp hx
  · exact exec_error (s := { s with stg := stg }) hp herr

/-! ### SEED.INT of 0 and the reset engine -/

theorem wordsOf_zero (v n : Nat) : wordsOf v n 0 = makeZero v n :=
  val_inj (by simp) (by rw [val_wordsOf, val_makeZero, Nat.zero_mod])

theorem makeFromInt_zero (v n : Nat) : makeFromInt v n 0 = some (makeZero v n) := by
  rw [makeFromInt, if_neg (Nat.not_le.mpr (Nat.two_pow_pos _)), wordsOf_zero]

theorem keyRejected_makeZero (c : Cfg) : keyRejected c (makeZero c.width.bits c.k) = false := by
  simp [keyRejected, clrHighbits, val_makeZero]

theorem baseRejected_makeZero (c : Cfg) : baseRejected c (makeZero c.width.bits c.n) = false := by
  simp [baseRejected, lowPart, val_makeZero]

/-- Settles O22: both are the encoding of the zero key over the zero counter. -/
theorem resetEngineIsSeedIntZero : Obligations.ResetEngineIsSeedIntZero := by
  intro s p hp harg
  have hint : makeFromInt s.cfg.width.bits s.cfg.k p.snap.arg.toNat = some (makeZero s.cfg.width.bits s.cfg.k) := by
    rw [harg]; exact makeFromInt_zero _ _
  have hbody := commandBody_of_stages (e := s.eng) (r := s.res)
    (.seedInt false _ hint (keyRejected_makeZero _) (baseRejected_makeZero _))
  rw [engineReset_eq]
  exact exec_ok hp hbody

/-- Word n of the reset key: the marker in word K-1, and 0 in the others (R56). -/
theorem toNat_quadGet_resetKey (c : Cfg) (n : Fin 4) :
    (quadGet (resetKey c) n).toNat = if n.val = c.k - 1 then (c.ctrBits - 1) * 2 ^ (c.v - c.cbb) else 0 := by
  have hmarker : (markerBits c).toNat = (c.ctrBits - 1) * 2 ^ (c.v - c.cbb) := by
    have h := toNat_or_shift 0#c.width.bits c.cbb_le (by simp) c.ctrBits_lt
    rw [BitVec.zero_or] at h
    rw [markerBits, Params.v, h]
    simp [Nat.mul_comm]
  have hk := c.k_pos
  rw [resetKey, quadGet_hold _ c.v_le, List.getD_eq_getElem?_getD, List.getElem?_set]
  split
  · rename_i h
    rw [makeZero_length, if_pos (by omega), if_pos h.symm, Option.getD_some, hmarker]
  · rename_i h
    rw [if_neg (Ne.symm h), makeZero, List.getElem?_replicate]
    split <;> simp

/-- Settles O19: the key is the one field that is not zero or a constant of the configuration. -/
theorem resetDiscardsCommand : Obligations.ResetDiscardsCommand := by
  intro s rest hin
  have hstep : step s = .next (resetStep { s with inputs := rest }) := by simp only [step, hin, serve]
  exact ⟨_, hstep, rfl, rfl, rfl, rfl, rfl, rfl, rfl, rfl, s.cfg.cursor_toNat, toNat_quadGet_resetKey s.cfg,
    rfl, rfl⟩

/-! ### NEXT -/

theorem refill_fresh {c : Cfg} {e : Engine} (h : e.cursor.toNat < c.nresult) : refill c e = some e := by
  rw [refill, if_neg (Nat.ne_of_lt h)]

/-- An increment inside the window adds to the whole counter (R149). -/
theorem incr_ctrSeq_eq {c : Cfg} {e : Engine} {k : Nat}
    (h : val (ctrSeq c e) % 2 ^ c.ctrBits + k < 2 ^ c.ctrBits) :
    incr c.ctrBits (ctrSeq c e) k = some (wordsOf c.width.bits c.n (val (ctrSeq c e) + k)) := by
  have hlen : (ctrSeq c e).length = c.n := seqOf_length c.n_le _
  refine incr_eq_some_iff.mpr ⟨h, ?_⟩
  rw [hlen, ← Nat.add_assoc, high_low]

theorem refill_exhausted {c : Cfg} {e : Engine} (hcursor : e.cursor.toNat = c.nresult)
    (h : val (ctrSeq c e) % 2 ^ c.ctrBits + 1 < 2 ^ c.ctrBits) :
    refill c e = some {
      key := e.key
      ctr := hold (wordsOf c.width.bits c.n (val (ctrSeq c e) + 1))
      blk := hold (prf c (keySeq c e) (wordsOf c.width.bits c.n (val (ctrSeq c e) + 1)))
      cursor := 0 } := by
  rw [refill, if_pos hcursor, incr_ctrSeq_eq h]

theorem exec_next_of_refill {s : State} {p : Pending} {f : Engine} (hp : s.pend = some p)
    (hf : refill s.cfg s.eng = some f) :
    exec .next s =
      .next (commit p { s with eng := advance f, res := { s.res with result := resultRegs (drawn s.cfg f) } }) :=
  exec_ok hp (commandBody_of_stages (.next f hf))

theorem toNat_atW {v : Nat} (w n : Nat) (blk : Seq v) : (atW w n blk).toNat = val blk / 2 ^ (n * w) % 2 ^ w :=
  BitVec.toNat_ofNat _ _

/-- Settles O53: in the fresh phase the drawn result is a slice of the cached block. -/
theorem nextFreshCompletes : Obligations.NextFreshCompletes := by
  intro s p hp hlt
  refine ⟨(drawn s.cfg s.eng).toNat, exec_next_of_refill hp (refill_fresh hlt), toNat_atW _ _ _, fun he => ?_⟩
  rw [drawn, he.coherent hlt]

/-- Settles O54: the refilled engine has the next block and cursor 0, and its result 0 is drawn. -/
theorem nextExhaustedCompletes : Obligations.NextExhaustedCompletes := by
  intro s p hp hcursor hroom ctr blk
  have hdrawn : (drawn s.cfg { key := s.eng.key, ctr := hold ctr, blk := hold blk, cursor := 0 }).toNat =
      val blk % 2 ^ s.cfg.w := by
    rw [drawn, toNat_atW, blkSeq, seqOf_hold_prf]
    simp [blk]
  rw [exec_next_of_refill hp (refill_exhausted hcursor hroom), resultRegs, hdrawn]
  rfl

end Sys2Proof.Machine
end

section
/-! PROOFS. The register port: which index names which register, and what each register reads and stores (R35 to R51),
and the one word CLRST has (R274). -/
namespace Sys2Proof.Machine

/-! ### Indices and registers -/

/-- The staging registers (R39, R41, R42, R43). -/
def RegName.isStaging : RegName → Bool
  | .arg | .keyin _ | .ctrin _ | .din _ => true
  | _ => false

/-- The staging registers that store V bits (R36). -/
def RegName.isWord : RegName → Bool
  | .keyin _ | .ctrin _ => true
  | _ => false

theorem regIndex_regName : ∀ i : Index, regName i ≠ .reserved → regIndex (regName i) = i := by decide

theorem regName_eq_reserved_iff : ∀ i : Index, regName i = .reserved ↔ 0x25 ≤ i.toNat ∧ i.toNat ≤ 0x3D := by decide

theorem regName_eq_cmd_iff : ∀ i : Index, regName i = .cmd ↔ i.toNat = 0x00 := by decide

theorem regName_isStaging_iff : ∀ i : Index,
    (regName i).isStaging = true ↔ i.toNat = 0x02 ∨ (0x04 ≤ i.toNat ∧ i.toNat ≤ 0x13) := by decide

theorem regName_isWord_iff : ∀ i : Index,
    (regName i).isWord = true ↔ 0x04 ≤ i.toNat ∧ i.toNat ≤ 0x0B := by decide

theorem regName_inj {i j : Index} (hi : regName i ≠ .reserved) (h : regName j = regName i) : j = i := by
  rw [← regIndex_regName i hi, ← h, regIndex_regName j (h ▸ hi)]

theorem regRead_regIndex (s : State) {r : RegName} (h : r ≠ .reserved) : regRead s (regIndex r) = readName s r := by
  rw [regRead, regName_regIndex r h]

/-! ### Writes -/

theorem writeName_ignored (x : Reg) (s : State) {r : RegName} (hcmd : r ≠ .cmd) (hstg : r.isStaging = false) :
    writeName x s r = s := by
  cases r with
  | cmd => exact absurd rfl hcmd
  | arg | keyin n | ctrin n | din n => cases hstg
  | _ => rfl

theorem readName_writeName_self (x : Reg) (s : State) {r : RegName} (h : r.isStaging = true) :
    readName (writeName x s r) r = if r.isWord then wordOf s.cfg x else x := by
  cases r with
  | arg => rfl
  | keyin n => simp [readName, writeName, RegName.isWord]
  | ctrin n => simp [readName, writeName, RegName.isWord]
  | din n => simp [readName, writeName, RegName.isWord]
  | _ => cases h

theorem readName_writeName_of_ne (x : Reg) (s : State) {r r' : RegName} (h : r.isStaging = true) (hne : r' ≠ r) :
    readName (writeName x s r) r' = readName s r' := by
  cases r with
  | arg =>
    cases r' with
    | arg => exact absurd rfl hne
    | _ => rfl
  | keyin n =>
    cases r' with
    | keyin m =>
      have hm : m ≠ n := fun h => hne (h ▸ rfl)
      simp [readName, writeName, hm]
    | _ => rfl
  | ctrin n =>
    cases r' with
    | ctrin m =>
      have hm : m ≠ n := fun h => hne (h ▸ rfl)
      simp [readName, writeName, hm]
    | _ => rfl
  | din n =>
    cases r' with
    | din m =>
      have hm : m ≠ n := fun h => hne (h ▸ rfl)
      simp [readName, writeName, hm]
    | _ => rfl
  | _ => cases h

theorem wordOf_eq_ofNat (c : Cfg) (x : Reg) : wordOf c x = BitVec.ofNat 64 (x.toNat % 2 ^ c.v) := by
  apply BitVec.eq_of_toNat_eq
  rw [BitVec.toNat_ofNat, ← toNat_wordOf, Nat.mod_eq_of_lt (wordOf c x).isLt]

/-- Settles O14: what a register reads depends on its own staging register only, and no two indices name one. -/
theorem stagingWriteReadsBack : Obligations.StagingWriteReadsBack := by
  intro s i x hi
  have hstg : (regName i).isStaging = true := (regName_isStaging_iff i).mpr hi
  have hres : regName i ≠ .reserved := fun h => by rw [h] at hstg; cases hstg
  refine ⟨?_, fun j hj => readName_writeName_of_ne x s hstg fun h => hj (regName_inj hres h)⟩
  simp only [regRead, regWrite, readName_writeName_self x s hstg, regName_isWord_iff, wordOf_eq_ofNat]

/-- Settles O15: their indices name neither CMD nor a staging register. -/
theorem readOnlyWritesIgnored : Obligations.ReadOnlyWritesIgnored := by
  constructor
  · intro s i x hi
    have hcmd : regName i ≠ .cmd := fun h => by have := (regName_eq_cmd_iff i).mp h; omega
    have hstg : (regName i).isStaging = false := by
      refine Bool.eq_false_iff.mpr fun h => ?_
      have := (regName_isStaging_iff i).mp h
      omega
    exact writeName_ignored x s hcmd hstg
  · intro s i hlo hhi
    rw [regRead, (regName_eq_reserved_iff i).mpr ⟨hlo, hhi⟩, readName]

/-! ### The acceptance of a command word -/

/-- What the decoder accepts: an assigned opcode, no bit outside its fields, and L at most 8 (R114). -/
theorem decode_eq_ok_iff {cw : Reg} {i : Instr} :
    decode cw = .ok i ↔
      commandOf cw = some i ∧ cw &&& ~~~(allowedBits (opField cw) ||| 0xFF) = 0 ∧ i.wellFormed = true := by
  unfold decode
  cases commandOf cw with
  | none => simp
  | some j =>
    simp only [ne_eq, ite_not, Option.some.injEq]
    split
    · rename_i hbits
      split
      · rename_i hwf
        rw [Except.ok.injEq]
        exact ⟨fun h => ⟨h, hbits, h ▸ hwf⟩, fun h => h.1⟩
      · rename_i hwf
        simp only [reduceCtorEq, false_iff]
        exact fun ⟨h, _, hi⟩ => hwf (h ▸ hi)
    · rename_i hbits
      simp only [reduceCtorEq, false_iff]
      exact fun ⟨_, h, _⟩ => hbits h

theorem some_of_ite_some {α : Type} {p : Prop} [Decidable p] {a b : α} {x : Option α}
    (h : (if p then some a else x) = some b) : (p ∧ a = b) ∨ x = some b := by
  split at h
  · exact .inl ⟨‹p›, Option.some.inj h⟩
  · exact .inr h

theorem opField_of_commandOf {cw : Reg} {i : Instr} (h : commandOf cw = some i) : opField cw = opcode i := by
  unfold commandOf at h
  dsimp only at h
  iterate 11
    obtain ⟨hop, rfl⟩ | h := some_of_ite_some h
    · exact hop
  cases h

/-- A word with nothing above its low byte is its opcode. -/
theorem eq_setWidth_opField {cw : Reg} (h : cw &&& ~~~0xFF = 0) : cw = (opField cw).setWidth 64 := by
  refine BitVec.eq_of_getLsbD_eq fun i hi => ?_
  rw [BitVec.getLsbD_setWidth, opField, BitVec.getLsbD_extractLsb', Nat.zero_add]
  by_cases hlow : i < 8
  · simp [hi, hlow]
  · have hbit : (cw &&& ~~~0xFF).getLsbD i = false := by rw [h]; exact BitVec.getLsbD_zero
    have hmask : (0xFF : Reg).getLsbD i = false :=
      Nat.testBit_lt_two_pow (lt_of_lt_of_le (by decide : 255 < 2 ^ 8) (Nat.pow_le_pow_right (by omega) (by omega)))
    rw [BitVec.getLsbD_and, BitVec.getLsbD_not, hmask] at hbit
    simpa [hi, hlow] using hbit

/-- CLRST has one legal word (R274). -/
theorem decode_eq_clrst_iff (cw : Reg) : decode cw = .ok .clrst ↔ cw = 0x0F := by
  constructor
  · intro h
    obtain ⟨hcmd, hbits, -⟩ := decode_eq_ok_iff.mp h
    have hop : opField cw = 0x0F := opField_of_commandOf hcmd
    rw [hop] at hbits
    have hcw := eq_setWidth_opField (cw := cw) (by simpa [allowedBits] using hbits)
    rw [hcw, hop]; rfl
  · rintro rfl; decide

theorem droppedAfterAccept_eq (cw : Reg) (dropped : Bool) :
    droppedAfterAccept cw dropped = if cw = 0x0F then false else dropped := by
  unfold droppedAfterAccept
  split
  · rename_i h
    rw [if_pos ((decode_eq_clrst_iff cw).mp h)]
  · rename_i h
    rw [if_neg fun hcw => h ((decode_eq_clrst_iff cw).mpr hcw)]

/-- Settles O6: the write is `accept`, and CLRST has one word. -/
theorem cmdWriteAcceptedWhenIdle : Obligations.CmdWriteAcceptedWhenIdle := by
  intro s cw rest hp hin
  have hwrite : step s = .next (writeCmd cw { s with inputs := rest }) := by
    rw [step, hin]; rfl
  have hidle : busy { s with inputs := rest } = false := by simp [busy, hp]
  rw [hwrite, writeCmd, if_neg (by simp [hidle]), accept, droppedAfterAccept_eq]

/-! ### The views -/

theorem toNat_setWidth_of_le {m : Nat} (h : m ≤ 64) (x : BitVec m) : (x.setWidth 64).toNat = x.toNat := by
  rw [BitVec.toNat_setWidth, Nat.mod_eq_of_lt (lt_of_lt_of_le x.isLt (Nat.pow_le_pow_right (by omega) h))]

/-- A view reads word n of its sequence, and 0 past the sequence's end (R47, R48). -/
theorem toNat_viewWord {v len : Nat} {x : Seq v} (hv : v ≤ 64) (hlen : x.length = len) (n : Fin 4) :
    (viewWord x n).toNat = if n.val < len then val x / 2 ^ (n.val * v) % 2 ^ v else 0 := by
  rw [viewWord, quadGet_hold x hv]
  split
  · exact toNat_getD x n.val
  · rename_i h
    rw [List.getD_eq_default _ _ (by omega)]
    rfl

/-- Settles O16: the views are words of the engine's sequences. -/
theorem engineViews : Obligations.EngineViews := by
  intro s
  refine ⟨toNat_setWidth_of_le (by omega) _, fun n hn => ⟨?_, ?_⟩, rfl, toNat_setWidth_of_le (by omega) _,
    ⟨rfl, rfl, rfl, rfl⟩, toNat_wordOf _ _, toNat_wordOf _ _, toNat_wordOf _ _, toNat_wordOf _ _⟩
  · have hread : regRead s (BitVec.ofNat 6 (0x1D + n)) = readName s (.ctr ⟨n, hn⟩) :=
      regRead_regIndex s (r := .ctr ⟨n, hn⟩) (by simp)
    rw [hread]
    exact toNat_viewWord s.cfg.v_le (seqOf_length s.cfg.n_le _) ⟨n, hn⟩
  · have hread : regRead s (BitVec.ofNat 6 (0x21 + n)) = readName s (.key ⟨n, hn⟩) :=
      regRead_regIndex s (r := .key ⟨n, hn⟩) (by simp)
    rw [hread]
    exact toNat_viewWord s.cfg.v_le (seqOf_length s.cfg.k_le _) ⟨n, hn⟩

/-! ### STATUS, ID and CONFIG -/

/-- The fields of STATUS are side by side in its low 32 bits (R38). -/
theorem toNat_statusWord (s : State) :
    (statusWord s).toNat =
      (busy s).toNat + s.status.dropped.toNat * 2 + s.status.code.toNat * 2 ^ 8 + s.status.detail.toNat * 2 ^ 16 +
        s.status.lastop.toNat * 2 ^ 24 := by
  have := (busy s).toNat_le
  have := s.status.dropped.toNat_le
  have := s.status.code.isLt
  have := s.status.detail.isLt
  have := s.status.lastop.isLt
  rw [statusWord, BitVec.toNat_ofNat, Nat.mod_eq_of_lt (by omega)]

theorem getLsbD_eq_of_toNat {w i : Nat} {x : BitVec w} {b : Bool} (h : x.toNat / 2 ^ i % 2 = b.toNat) :
    x.getLsbD i = b := by
  rw [BitVec.getLsbD, Nat.testBit_eq_decide_div_mod_eq, h]
  cases b <;> rfl

theorem extractLsb'_eq_of_toNat {w lo len : Nat} {x : BitVec w} {y : BitVec len}
    (h : x.toNat / 2 ^ lo % 2 ^ len = y.toNat) : x.extractLsb' lo len = y := by
  apply BitVec.eq_of_toNat_eq
  rw [BitVec.extractLsb'_toNat, Nat.shiftRight_eq_div_pow, h]

/-- Settles O17: each field is a digit of the sum. -/
theorem statusFields : Obligations.StatusFields := by
  intro s
  have hread : regRead s 0x01 = statusWord s := rfl
  have hword := toNat_statusWord s
  have hbusy := (busy s).toNat_le
  have hdropped := s.status.dropped.toNat_le
  have hcode := s.status.code.isLt
  have hdetail := s.status.detail.isLt
  have hlastop := s.status.lastop.isLt
  rw [hread]
  refine ⟨getLsbD_eq_of_toNat (b := busy s) ?_, getLsbD_eq_of_toNat ?_, extractLsb'_eq_of_toNat ?_,
    extractLsb'_eq_of_toNat ?_, extractLsb'_eq_of_toNat ?_, extractLsb'_eq_of_toNat ?_,
    extractLsb'_eq_of_toNat ?_⟩ <;> rw [hword]
  · omega
  · omega
  · show _ = 0
    omega
  · omega
  · omega
  · omega
  · show _ = 0
    omega

/-- No parameter exceeds its field of CONFIG (R51). -/
theorem config_fields_fit (c : Cfg) :
    c.n < 2 ^ 4 ∧ c.k < 2 ^ 4 ∧ c.m < 2 ^ 4 ∧ c.v < 2 ^ 8 ∧ c.rounds < 2 ^ 8 ∧ c.w < 2 ^ 9 ∧ c.ctrBits < 2 ^ 9 ∧
      c.nresult < 2 ^ 9 ∧ c.cbb < 2 ^ 4 := by
  have hn := c.n_le
  have hk := c.k_le
  have hm := c.m_eq
  have hv : c.v ≤ 64 := c.v_le
  obtain ⟨-, hrounds⟩ := c.admitted_rounds
  have hmax : c.maxRounds ≤ 72 := by unfold Params.maxRounds; split <;> omega
  have hw := c.w_le
  obtain ⟨hnbits, -, hcbb⟩ := c.cbb_spec
  have hpow : 2 ^ c.cbb ≤ 2 ^ 8 := Nat.pow_le_pow_right (by omega) hcbb
  have hctr : c.ctrBits ≤ 2 ^ c.cbb := hnbits ▸ c.ctrBits_le
  have hnresult := c.nresult_le
  omega

theorem toNat_configWord (c : Cfg) :
    (configWord c).toNat =
      (decide (c.prf = .threefry)).toNat + c.n * 2 ^ 4 + c.k * 2 ^ 8 + c.m * 2 ^ 12 + c.v * 2 ^ 16 + c.rounds * 2 ^ 24 +
        c.w * 2 ^ 32 + c.ctrBits * 2 ^ 41 + c.nresult * 2 ^ 50 + c.cbb * 2 ^ 59 := by
  have hprf := (decide (c.prf = .threefry)).toNat_le
  have hfit := config_fields_fit c
  rw [configWord, BitVec.toNat_ofNat, Nat.mod_eq_of_lt (by omega)]

/-- Settles O18: each field is a digit of the sum, because no parameter exceeds its field. -/
theorem idAndConfig : Obligations.IdAndConfig := by
  refine ⟨fun _ => rfl, fun s => ?_, fun s hs => ?_⟩
  · have hword : (regRead s 0x3F).toNat = _ := toNat_configWord s.cfg
    have hprf : (decide (s.cfg.prf = .threefry)).toNat = if s.cfg.prf = .philox then 0 else 1 := by
      cases s.cfg.prf <;> rfl
    have hle := (decide (s.cfg.prf = .threefry)).toNat_le
    obtain ⟨hn, hk, hm, hv, hrounds, hw, hctr, hnresult, hcbb⟩ := config_fields_fit s.cfg
    dsimp only
    rw [← hprf, hword]
    refine ⟨?_, ?_, ?_, ?_, ?_, ?_, ?_, ?_, ?_, ?_, ?_, ?_⟩ <;> omega
  · have hread : regRead s 0x3F = configWord s.cfg := rfl
    rw [hread, hs]
    decide

end Sys2Proof.Machine
end

section
/-! PROOFS. The host's accesses: a register read, the byte bus (R84), what a step can do while a command is in flight
(R91, R345), and that no step is stuck (R310). -/
namespace Sys2Proof.Machine

/-! ### The step, by what is asked for -/

theorem step_of_inputs_nil {s : State} (h : s.inputs = []) : step s = quiet s := by rw [step, h]

theorem step_of_inputs_cons {s : State} {e : Event} {rest : List Event} (h : s.inputs = e :: rest) :
    step s = serve e { s with inputs := rest } := by rw [step, h]

/-! ### Register reads -/

/-- The registers that are neither STATUS nor staging show the configuration, the engine, the results and CMD alone
(R35). -/
theorem readName_congr {s t : State} {r : RegName} (hcfg : t.cfg = s.cfg) (heng : t.eng = s.eng) (hres : t.res = s.res)
    (hcmd : t.cmd = s.cmd) (hstatus : r ≠ .status) (hstg : r.isStaging = false) : readName t r = readName s r := by
  cases r with
  | status => exact absurd rfl hstatus
  | arg | keyin n | ctrin n | din n => cases hstg
  | ctr n | key n => simp only [readName]; rw [hcfg, heng]
  | _ => simp only [readName, hcfg, heng, hres, hcmd]

/-- No register shows the coming steps. -/
theorem regRead_withInputs (s : State) (inputs : List Event) (i : Index) :
    regRead { s with inputs := inputs } i = regRead s i := by
  unfold regRead
  cases regName i <;> rfl

/-- Settles O8: the step is `hostRead`, and no register shows the coming steps. -/
theorem hostReadChangesNothing : Obligations.HostReadChangesNothing := by
  intro s i rest hin
  rw [step_of_inputs_cons hin, serve, hostRead, regRead_withInputs]

/-! ### The byte bus (R84) -/

theorem busIndex_register (i : Index) : busIndex (8 * i.toNat) 8 = some i := by
  have hi := i.isLt
  have hindex : 8 * i.toNat / 8 = i.toNat := by omega
  rw [busIndex, if_pos (by omega), hindex, BitVec.ofNat_toNat, BitVec.setWidth_eq]

theorem busIndex_eq_none_iff {offset size : Nat} :
    busIndex offset size = none ↔ ¬(size = 8 ∧ offset % 8 = 0 ∧ offset < 512) := by
  simp only [busIndex, ite_eq_right_iff, reduceCtorEq, imp_false, Nat.reduceMul]

theorem busRead_of_some {offset size : Nat} {i : Index} (h : busIndex offset size = some i) (s : State) :
    busRead offset size s = .next (hostRead i s) := by rw [busRead, h]

theorem busRead_of_none {offset size : Nat} (h : busIndex offset size = none) (s : State) :
    busRead offset size s = .refused .busAccess := by rw [busRead, h]

theorem busWrite_of_some {offset : Nat} {data : List (BitVec 8)} {i : Index}
    (h : busIndex offset data.length = some i) (s : State) :
    busWrite offset data s = .next (regWrite i (busValue data) s) := by rw [busWrite, h]

theorem busWrite_of_none {offset : Nat} {data : List (BitVec 8)} (h : busIndex offset data.length = none) (s : State) :
    busWrite offset data s = .refused .busAccess := by rw [busWrite, h]

theorem busBytes_length (x : Reg) : (busBytes x).length = 8 := wordsOf_length 8 8 x.toNat

theorem val_busBytes (x : Reg) : val (busBytes x) = x.toNat := by
  rw [busBytes, val_wordsOf, Nat.mod_eq_of_lt x.isLt]

theorem busValue_busBytes (x : Reg) : busValue (busBytes x) = x := by
  rw [busValue, val_busBytes, BitVec.ofNat_toNat, BitVec.setWidth_eq]

/-- Settles O9: offset 8·i reaches register i, and the lanes of a value are the words of its integer. -/
theorem busAccessIsRegisterAccess : Obligations.BusAccessIsRegisterAccess := by
  refine ⟨fun s i => busRead_of_some (busIndex_register i) s, fun s i x => ?_, fun x j _ => ?_,
    fun s offset size h => ⟨busRead_of_none (busIndex_eq_none_iff.mpr h) s, ?_⟩⟩
  · have hindex : busIndex (8 * i.toNat) (busBytes x).length = some i := by
      rw [busBytes_length, busIndex_register]
    rw [busWrite_of_some hindex, busValue_busBytes]
  · have hlane := toNat_getD (busBytes x) j
    rw [val_busBytes, Nat.mul_comm] at hlane
    exact (extractLsb'_eq_of_toNat hlane.symm).symm
  · rintro data rfl
    exact busWrite_of_none (busIndex_eq_none_iff.mpr h) s

/-! ### What a step does while a command is in flight (R345) -/

/-- In flight, a step other than Complete and Reset moves the model's own fields, stores into staging registers, or sets
DROPPED, and nothing else. -/
theorem step_cases_in_flight {s t : State} {p : Pending} {e : Event} {rest : List Event} (hp : s.pend = some p)
    (hin : s.inputs = e :: rest) (hcomplete : e ≠ .complete) (hreset : e ≠ .reset) (h : step s = .next t) :
    ∃ stg reads status, (status = s.status ∨ status = { s.status with dropped := true }) ∧
      t = { s with inputs := rest, stg := stg, reads := reads, status := status } := by
  obtain ⟨hnil, -⟩ | ⟨e', rest', hin', hcase⟩ := step_eq_next h
  · rw [hin] at hnil; cases hnil
  · rw [hin] at hin'
    cases hin'
    obtain ⟨i, rfl⟩ | ⟨i, x, rfl⟩ | ⟨he, -⟩ | ⟨he, -⟩ := hcase
    · exact ⟨_, _, _, .inl rfl, rfl⟩
    · obtain heq | ⟨stg, heq⟩ | ⟨hidle, -⟩ | ⟨-, heq⟩ := regWrite_cases i x { s with inputs := rest }
      · exact ⟨_, _, _, .inl rfl, heq⟩
      · exact ⟨_, _, _, .inl rfl, heq⟩
      · simp [busy, hp] at hidle
      · exact ⟨_, _, _, .inr rfl, heq⟩
    · exact absurd he hcomplete
    · exact absurd he hreset

/-- Two words are equal under a set bit 1 when they agree in bit 0 and in the bits from 2 up. -/
theorem or_two_eq_or_two {x y : Reg} (hlow : x.toNat % 2 = y.toNat % 2) (hhigh : x.toNat / 2 ^ 2 = y.toNat / 2 ^ 2) :
    x ||| 0x02 = y ||| 0x02 := by
  have agree : ∀ i, i ≠ 1 → x.getLsbD i = y.getLsbD i := by
    intro i hi
    rw [← BitVec.testBit_toNat x, ← BitVec.testBit_toNat y]
    match i with
    | 0 => rw [Nat.testBit_zero, Nat.testBit_zero, hlow]
    | 1 => exact absurd rfl hi
    | n + 2 =>
      have hquarter (a : Nat) : a.testBit (n + 2) = (a / 2 ^ 2).testBit n := by
        rw [Nat.testBit_div_two_pow, Nat.add_comm]
      rw [hquarter, hquarter, hhigh]
  refine BitVec.eq_of_getLsbD_eq fun i _ => ?_
  rw [BitVec.getLsbD_or, BitVec.getLsbD_or]
  by_cases hi : i = 1
  · have hbit : (0x02 : Reg).getLsbD i = true := by rw [hi]; rfl
    rw [hbit, Bool.or_true, Bool.or_true]
  · rw [agree i hi]

/-- DROPPED is bit 1 of STATUS and no other bit (R38). -/
theorem statusWord_or_two {s t : State} (hpend : t.pend = s.pend)
    (hstatus : t.status = s.status ∨ t.status = { s.status with dropped := true }) :
    statusWord t ||| 0x02 = statusWord s ||| 0x02 := by
  obtain ⟨hcode, hdetail, hlastop⟩ :
      t.status.code = s.status.code ∧ t.status.detail = s.status.detail ∧ t.status.lastop = s.status.lastop := by
    obtain h | h := hstatus <;> simp [h]
  have hbusy : busy t = busy s := by rw [busy, busy, hpend]
  have hword := toNat_statusWord s
  have hword' := toNat_statusWord t
  rw [hbusy, hcode, hdetail, hlastop] at hword'
  have := (busy s).toNat_le
  have := s.status.dropped.toNat_le
  have := t.status.dropped.toNat_le
  exact or_two_eq_or_two (by omega) (by omega)

/-- Settles O12: such a step writes staging registers or DROPPED, and no register but those and STATUS shows them. -/
theorem registersStableInFlight : Obligations.RegistersStableInFlight := by
  intro s t p e rest hp hin hcomplete hreset ht
  obtain ⟨stg, reads, status, hstatus, rfl⟩ := step_cases_in_flight hp hin hcomplete hreset ht
  refine ⟨rfl, rfl, rfl, rfl, rfl, hstatus, statusWord_or_two rfl hstatus, fun i hi => ?_⟩
  have hname : regName i ≠ .status := fun h => by
    have : i = 0x01 := regName_inj (j := i) (i := 0x01) (by decide) h
    rw [this] at hi
    exact absurd hi (by decide)
  have hstg : (regName i).isStaging = false := by
    refine Bool.eq_false_iff.mpr fun h => ?_
    have := (regName_isStaging_iff i).mp h
    omega
  exact readName_congr rfl rfl rfl rfl hname hstg

/-! ### No step is stuck -/

/-- A command in flight ends: it commits or it fails (R300). -/
theorem exec_progress (i : Instr) {s : State} {p : Pending} (hp : s.pend = some p) : ∃ t, exec i s = .next t := by
  cases hbody : commandBody s.cfg s.eng s.res p.snap i with
  | ok x => exact ⟨_, exec_ok hp hbody⟩
  | error err => exact ⟨_, exec_error hp hbody⟩

/-- Complete is enabled whenever a command is in flight, whatever its word (R343). -/
theorem complete_progress {s : State} {p : Pending} (hp : s.pend = some p) : ∃ t, complete s = .next t := by
  cases hdecode : decode p.cmd with
  | ok i =>
    obtain ⟨t, ht⟩ := exec_progress i hp
    exact ⟨t, complete_eq_next.mpr ⟨p, hp, .inl ⟨i, hdecode, ht⟩⟩⟩
  | error err => exact ⟨_, complete_eq_next.mpr ⟨p, hp, .inr ⟨err, hdecode, rfl⟩⟩⟩

/-- Complete is refused on an idle block only (log 4). -/
theorem complete_cases (s : State) :
    (∃ t, complete s = .next t) ∨ (complete s = .refused .noCommandInFlight ∧ s.pend = none) := by
  cases hp : s.pend with
  | none => exact .inr ⟨by rw [complete, hp], rfl⟩
  | some p => exact .inl (complete_progress hp)

/-- With nothing asked for, the block completes its command or waits. -/
theorem quiet_progress (s : State) : ∃ t, quiet s = .next t := by
  cases hp : s.pend with
  | none => exact ⟨s, by simp [quiet, busy, hp]⟩
  | some p =>
    obtain ⟨t, ht⟩ := complete_progress hp
    exact ⟨t, by simpa [quiet, busy, hp] using ht⟩

/-- Settles O10: each kind of step answers a next state, but for Complete on an idle block and for the bus accesses that
reach no register. -/
theorem neverStuck : Obligations.NeverStuck := by
  intro s
  cases hin : s.inputs with
  | nil =>
    rw [step_of_inputs_nil hin]
    exact .inl (quiet_progress s)
  | cons e rest =>
    rw [step_of_inputs_cons hin]
    cases e with
    | hostRead i => exact .inl ⟨_, rfl⟩
    | hostWrite i x => exact .inl ⟨_, rfl⟩
    | reset => exact .inl ⟨_, rfl⟩
    | complete =>
      obtain hnext | ⟨hrefused, hidle⟩ := complete_cases { s with inputs := rest }
      · exact .inl hnext
      · exact .inr (.inl ⟨hrefused, hidle, rfl⟩)
    | busRead offset size =>
      cases hindex : busIndex offset size with
      | none =>
        exact .inr (.inr ⟨busRead_of_none hindex _, offset, size, [], .inl rfl, busIndex_eq_none_iff.mp hindex⟩)
      | some i => exact .inl ⟨_, busRead_of_some hindex _⟩
    | busWrite offset data =>
      cases hindex : busIndex offset data.length with
      | none =>
        exact .inr (.inr ⟨busWrite_of_none hindex _, offset, data.length, data, .inr ⟨rfl, rfl⟩,
          busIndex_eq_none_iff.mp hindex⟩)
      | some i => exact .inl ⟨_, busWrite_of_some hindex _⟩

end Sys2Proof.Machine
end

section
/-! PROOFS. The command word: what its fields read and keep, and that decoding and encoding are inverse (R110 to R117). -/
namespace Sys2Proof.Machine

/-! ### The fields of a command word (R111) -/

/-- Every bit of a command word is a bit of one field, or 0 (R110, R111). -/
theorem getLsbD_commandWord (len : BitVec 4) (u s b : Bool) (op : BitVec 8) (i : Nat) :
    (commandWord len u s b op).getLsbD i =
      if i < 8 then op.getLsbD i
      else if i = 8 then b
      else if i = 9 then s
      else if i = 10 then u
      else decide (16 ≤ i) && len.getLsbD (i - 16) := by
  have hbit (x : Bool) (j : Nat) : (BitVec.ofBool x).getLsbD j = (decide (j = 0) && x) := by
    cases x <;> simp
  have hhigh : 64 ≤ i → len.getLsbD (i - 16) = false := fun h => BitVec.getLsbD_of_ge _ _ (by omega)
  have hop : 8 ≤ i → op.getLsbD i = false := BitVec.getLsbD_of_ge _ _
  simp only [commandWord, BitVec.getLsbD_or, BitVec.getLsbD_shiftLeft, BitVec.getLsbD_setWidth, hbit]
  grind

@[simp] theorem opField_commandWord (len : BitVec 4) (u s b : Bool) (op : BitVec 8) :
    opField (commandWord len u s b op) = op := by
  refine BitVec.eq_of_getLsbD_eq fun i hi => ?_
  simp [opField, getLsbD_commandWord, hi]

@[simp] theorem bField_commandWord (len : BitVec 4) (u s b : Bool) (op : BitVec 8) :
    bField (commandWord len u s b op) = b := getLsbD_commandWord len u s b op 8

@[simp] theorem sField_commandWord (len : BitVec 4) (u s b : Bool) (op : BitVec 8) :
    sField (commandWord len u s b op) = s := getLsbD_commandWord len u s b op 9

@[simp] theorem uField_commandWord (len : BitVec 4) (u s b : Bool) (op : BitVec 8) :
    uField (commandWord len u s b op) = u := getLsbD_commandWord len u s b op 10

@[simp] theorem lField_commandWord (len : BitVec 4) (u s b : Bool) (op : BitVec 8) :
    lField (commandWord len u s b op) = len := by
  refine BitVec.eq_of_getLsbD_eq fun i hi => ?_
  have hpast : ¬16 + i < 8 ∧ 16 + i ≠ 8 ∧ 16 + i ≠ 9 ∧ 16 + i ≠ 10 := by omega
  simp [lField, getLsbD_commandWord, hi, hpast]

/-- Masking a word with a command word masks each field, and clears every bit outside the fields. -/
theorem and_commandWord (cw : Reg) (len : BitVec 4) (u s b : Bool) (op : BitVec 8) :
    cw &&& commandWord len u s b op =
      commandWord (lField cw &&& len) (uField cw && u) (sField cw && s) (bField cw && b) (opField cw &&& op) := by
  refine BitVec.eq_of_getLsbD_eq fun i hi => ?_
  simp only [BitVec.getLsbD_and, getLsbD_commandWord, opField, bField, sField, uField, lField,
    BitVec.getLsbD_extractLsb']
  grind

/-- The bits an opcode may vary, with OP's own, are the fields R112 allows it. -/
theorem allowedBits_or_eq_commandWord (op : BitVec 8) :
    allowedBits op ||| 0xFF =
      if op = 0x01 ∨ op = 0x02 then commandWord 0 false false true 0xFF
      else if op = 0x03 then commandWord 0xF true true false 0xFF
      else commandWord 0 false false false 0xFF := by
  unfold allowedBits
  split
  · decide
  · split <;> decide

/-! ### Encoding what was decoded (R110, R112) -/

/-- Encoding the command read from a word gives the word's bits in the fields its opcode allows (R112, R113). -/
theorem encode_of_commandOf {cw : Reg} {i : Instr} (h : commandOf cw = some i) :
    encode i = cw &&& (allowedBits (opField cw) ||| 0xFF) := by
  have hlen : lField cw &&& 15#4 = lField cw := BitVec.and_allOnes
  rw [allowedBits_or_eq_commandWord]
  unfold commandOf at h
  dsimp only at h
  iterate 11
    obtain ⟨hop, rfl⟩ | h := some_of_ite_some h
    · simp [encode, and_commandWord, hop, hlen]
  cases h

/-- A word with no bit outside a mask is its own part inside the mask. -/
theorem and_eq_self_of_and_not_eq_zero {w : Nat} {x mask : BitVec w} (h : x &&& ~~~mask = 0) : x &&& mask = x := by
  have hsplit : x &&& mask ||| x &&& ~~~mask = x := by
    rw [← BitVec.and_or_distrib_left, BitVec.or_not_self, BitVec.and_allOnes]
  rwa [h, BitVec.ofNat_eq_ofNat, BitVec.or_zero] at hsplit

/-- Settles O2: encoding gives back the bits of the allowed fields, and a legal word has no other bit set. -/
theorem encodeOfDecode : Obligations.EncodeOfDecode := by
  intro cw i h
  obtain ⟨hcmd, hbits, hwf⟩ := decode_eq_ok_iff.mp h
  exact ⟨(encode_of_commandOf hcmd).trans (and_eq_self_of_and_not_eq_zero hbits), hwf⟩

/-! ### Decoding what was encoded (R113, R117) -/

/-- The word of every command carries its opcode and no bit outside the fields R112 allows. -/
theorem encodeFields (i : Instr) : Laws.EncodeFields.Statement i := by
  cases i with
  | nop => exact Laws.EncodeFields.nop
  | seedKey b => exact Laws.EncodeFields.seedKey b
  | seedInt b => exact Laws.EncodeFields.seedInt b
  | seedRange strict wide len => exact Laws.EncodeFields.seedRange strict wide len
  | seedSeq => exact Laws.EncodeFields.seedSeq
  | restart => exact Laws.EncodeFields.restart
  | load => exact Laws.EncodeFields.load
  | next => exact Laws.EncodeFields.next
  | discard => exact Laws.EncodeFields.discard
  | prfApply => exact Laws.EncodeFields.prfApply
  | clrst => exact Laws.EncodeFields.clrst

/-- The opcode and the fields of a command's word are the command's own, whatever L is (R113). -/
theorem commandOf_encode (i : Instr) : commandOf (encode i) = some i := by
  cases i <;> simp [commandOf, encode]

/-- Once opcode and reserved bits have passed, L decides (R114). -/
theorem decode_of_commandOf {cw : Reg} {i : Instr} (hcmd : commandOf cw = some i)
    (hbits : cw &&& ~~~(allowedBits (opField cw) ||| 0xFF) = 0) :
    decode cw = if i.wellFormed then .ok i else .error .lengthOutOfRange := by
  rw [decode, hcmd]
  exact if_neg (not_not.mpr hbits)

theorem decode_encode (i : Instr) :
    decode (encode i) = if i.wellFormed then .ok i else .error .lengthOutOfRange := by
  obtain ⟨hop, hbits⟩ := encodeFields i
  exact decode_of_commandOf (commandOf_encode i) (by rw [hop]; exact hbits)

/-- Settles O1: a command's word passes the checks of opcode and reserved bits, so its L alone decides. -/
theorem decodeOfEncode : Obligations.DecodeOfEncode := by
  refine ⟨fun i hwf => ?_, fun i hwf => ?_⟩
  · rw [decode_encode, hwf, if_pos rfl]
  · rw [decode_encode, hwf, if_neg Bool.false_ne_true]

/-- Settles O3: each word is evaluated. -/
theorem writtenOutWords : Obligations.WrittenOutWords := by
  unfold Obligations.WrittenOutWords
  decide

/-! ### The words that are illegal (R115, R116, R117) -/

/-- The opcodes of R113; R115 lists the others. -/
def assignedOpcodes : List (BitVec 8) := [0x00, 0x01, 0x02, 0x03, 0x04, 0x05, 0x06, 0x08, 0x09, 0x0C, 0x0F]

theorem ite_some_eq_none_iff {α : Type} {p : Prop} [Decidable p] {a : α} {x : Option α} :
    (if p then some a else x) = none ↔ ¬p ∧ x = none := by
  by_cases h : p <;> simp [h]

theorem commandOf_eq_none_iff (cw : Reg) : commandOf cw = none ↔ opField cw ∉ assignedOpcodes := by
  simp [commandOf, assignedOpcodes, ite_some_eq_none_iff]

theorem decode_unassigned {cw : Reg} (h : opField cw ∉ assignedOpcodes) : decode cw = .error .unassignedOpcode := by
  rw [decode, (commandOf_eq_none_iff cw).mpr h]

theorem decode_reservedBit {cw : Reg} (hop : opField cw ∈ assignedOpcodes)
    (hbits : cw &&& ~~~(allowedBits (opField cw) ||| 0xFF) ≠ 0) : decode cw = .error .reservedBit := by
  cases hcmd : commandOf cw with
  | none => exact absurd hop ((commandOf_eq_none_iff cw).mp hcmd)
  | some i => rw [decode, hcmd]; exact if_pos hbits

theorem commandOf_seedRange {cw : Reg} (hop : opField cw = 0x03) :
    commandOf cw = some (.seedRange (sField cw) (uField cw) (lField cw)) := by
  simp [commandOf, hop]

theorem decode_lengthOutOfRange {cw : Reg} (hop : opField cw = 0x03)
    (hbits : cw &&& ~~~(allowedBits (opField cw) ||| 0xFF) = 0) (hlen : 8 < (lField cw).toNat) :
    decode cw = .error .lengthOutOfRange := by
  have hwf : (Instr.seedRange (sField cw) (uField cw) (lField cw)).wellFormed = false :=
    decide_eq_false (Nat.not_le.mpr hlen)
  rw [decode_of_commandOf (commandOf_seedRange hop) hbits, hwf, if_neg Bool.false_ne_true]

/-- The mask of the bits an opcode leaves free, OP's own included, as a number (R112). -/
theorem allowedBits_or_eq_mask (op : BitVec 8) :
    allowedBits op ||| 0xFF = if op = 0x01 ∨ op = 0x02 then 0x1FF else if op = 0x03 then 0xF06FF else 0xFF := by
  rw [allowedBits_or_eq_commandWord]
  split
  · decide
  · split <;> decide

end Sys2Proof.Machine
end

section
/-! PROOFS. The Complete of an illegal word, of a decoded command, and of a command whose host polls (R114 to R117, R343,
R350). -/
namespace Sys2Proof.Machine

/-! ### Complete, by what the word decodes to (R114) -/

theorem complete_of_decode_ok {s : State} {p : Pending} {i : Instr} (hp : s.pend = some p)
    (h : decode p.cmd = .ok i) : complete s = exec i s := by
  simp only [complete, hp, h]

theorem complete_of_decode_error {s : State} {p : Pending} {e : DecodeError} (hp : s.pend = some p)
    (h : decode p.cmd = .error e) : complete s = .next (failWith p (.illegal e) s) := by
  simp only [complete, hp, h]

/-- Settles O4: each clause is the decoder's first failing check, and the failure's numbers are those of its error. -/
theorem illegalWordsWriteStatusOnly : Obligations.IllegalWordsWriteStatusOnly := by
  intro s p hp assigned op free ends
  have hfree : allowedBits op ||| 0xFF = free := allowedBits_or_eq_mask op
  refine ⟨fun hop => ?_, fun hop hbits => ?_, fun hop hbits hlen => ?_⟩
  · exact complete_of_decode_error hp (decode_unassigned hop)
  · exact complete_of_decode_error hp (decode_reservedBit hop (hfree ▸ hbits))
  · exact complete_of_decode_error hp (decode_lengthOutOfRange hop (hfree ▸ hbits) hlen)

/-- With nothing asked for, a command in flight completes (log 4). -/
theorem step_of_inputs_nil_in_flight {s : State} {p : Pending} (hin : s.inputs = []) (hp : s.pend = some p) :
    step s = complete s := by
  rw [step_of_inputs_nil hin, quiet, if_pos (by rw [busy, hp, Option.isSome_some])]

theorem decodeTableWord_eq_some_iff {nbits w : Nat} {i : Instr} :
    decodeTableWord nbits w = some i ↔ decode (tableWord nbits w) = .ok i := by
  unfold decodeTableWord
  cases decode (tableWord nbits w) <;> simp

/-- Settles O5: each of the three steps is the Complete of a state whose PEND holds the word. -/
theorem stepRunsDecoded : Obligations.StepRunsDecoded := by
  refine ⟨fun s p i hp hi => ⟨fun rest hin => ?_, fun hin => ?_⟩, fun s nbits w i hi => ?_⟩
  · rw [step_of_inputs_cons hin]
    exact complete_of_decode_ok hp hi
  · rw [step_of_inputs_nil_in_flight hin hp]
    exact complete_of_decode_ok hp hi
  · exact complete_of_decode_ok (s := accept (tableWord nbits w) s) rfl (decodeTableWord_eq_some_iff.mp hi)

/-! ### Polling (R350) -/

/-- A command in flight that completes leaves PEND empty (R303, R304). -/
theorem complete_empties_pend {s t : State} (h : complete s = .next t) : t.pend = none := by
  obtain ⟨p, -, ⟨i, -, ht⟩ | ⟨e, -, rfl⟩⟩ := complete_eq_next.mp h
  · obtain ⟨q, -, ⟨x, -, rfl⟩ | ⟨e, -, rfl⟩⟩ := exec_eq_next.mp ht <;> rfl
  · rfl

theorem run_succ_of_step {s t : State} (n : Nat) (h : step s = .next t) :
    Host.Core.run Sys2Proof.core (n + 1) s = Host.Core.run Sys2Proof.core n t := by
  have hstep : Sys2Proof.core.step s = .next t := h
  simp only [Host.Core.run, hstep]

/-- Settles O11: by induction on the reads, which keep PEND; after the last one the command completes. -/
theorem pollingFindsIdle : Obligations.PollingFindsIdle := by
  intro s p reads hp hin
  induction reads generalizing s with
  | zero =>
    obtain ⟨t, ht⟩ := complete_progress hp
    have hstep : step s = .next t := (step_of_inputs_nil_in_flight hin hp).trans ht
    exact ⟨t, run_succ_of_step 0 hstep, complete_empties_pend ht⟩
  | succ reads ih =>
    rw [run_succ_of_step _ (step_of_inputs_cons hin)]
    exact ih _ hp rfl

end Sys2Proof.Machine
end

section
/-! PROOFS. What the direct-value seeds write, and what SEED.RANGE rejects (R117, R144, R234 to R236). -/
namespace Sys2Proof.Machine

/-! ### The direct-value seeds -/

/-- check_key passes exactly when the marker field is 0 (R232). -/
theorem keyRejected_eq_false_iff {c : Cfg} {key : Seq c.width.bits} (hkey : key.length = c.k) :
    keyRejected c key = false ↔ markerField c key = 0 := by
  have hwidth : key.length * c.width.bits = c.kbits := by rw [hkey]; rfl
  rw [markerField_eq_div c key hkey, keyRejected, clrHighbits, hwidth, decide_eq_false_iff_not, not_not]

/-- check_base passes when B is 0, and when the counter operand's low CtrBits bits are 0 (R233). -/
theorem baseRejected_eq_false {c : Cfg} {b : Bool} {snap : Staging}
    (h : b = true → val (ctrOperand c snap) % 2 ^ c.ctrBits = 0) : baseRejected c (baseOperand c b snap) = false := by
  rw [← Bool.not_eq_true, baseRejected_iff]
  exact fun ⟨hb, hne⟩ => hne (h hb)

theorem hold_baseOperand (c : Cfg) (b : Bool) (snap : Staging) :
    hold (baseOperand c b snap) = if b then hold (ctrOperand c snap) else ⟨0, 0, 0, 0⟩ := by
  cases b with
  | false => exact hold_makeZero c
  | true => rfl

/-- An integer that fits the key type is its words (R143). -/
theorem makeFromInt_of_lt {v n a : Nat} (h : a < 2 ^ (n * v)) : makeFromInt v n a = some (wordsOf v n a) :=
  if_neg (Nat.not_le.mpr h)

/-- An integer below the marker field is a key whose marker field is 0. -/
theorem markerField_wordsOf_of_lt {c : Cfg} {a : Nat} (h : a < 2 ^ (c.kbits - c.cbb)) :
    markerField c (wordsOf c.width.bits c.k a) = 0 := by
  rw [markerField_eq_div c _ (wordsOf_length _ _ _), val_wordsOf]
  exact Nat.div_eq_of_lt (lt_of_le_of_lt (Nat.mod_le _ _) h)

/-- Settles O42: both checks pass, and the seeded engine is written. -/
theorem seedKeyCompletes : Obligations.SeedKeyCompletes := by
  intro s p b hp hmarker hbase
  have hkey := (keyRejected_eq_false_iff (keyOperand_length s.cfg p.snap)).mpr hmarker
  rw [← hold_baseOperand]
  exact exec_ok hp (commandBody_of_stages (.seedKey b hkey (baseRejected_eq_false hbase)))

/-- Settles O43: an ARG below the marker field fits KBITS and passes check_key. -/
theorem seedIntCompletes : Obligations.SeedIntCompletes := by
  intro s p b hp harg hbase
  have hfits : p.snap.arg.toNat < 2 ^ s.cfg.kbits :=
    lt_of_lt_of_le harg (Nat.pow_le_pow_right (by omega) (Nat.sub_le _ _))
  have hkey := (keyRejected_eq_false_iff (wordsOf_length _ _ _)).mpr (markerField_wordsOf_of_lt harg)
  rw [← hold_baseOperand]
  exact exec_ok hp
    (commandBody_of_stages (.seedInt b _ (makeFromInt_of_lt hfits) hkey (baseRejected_eq_false hbase)))

/-! ### SEED.RANGE -/

/-- What SEED.RANGE packs, at either width of its input words (R144, R236). -/
theorem packedRange_eq (c : Cfg) (wide : Bool) {len : Nat} (h : len ≤ 8) (snap : Staging) :
    packedRange c wide len snap =
      let u := if wide then 64 else 32
      let consumed := min len ((c.kbits + u - 1) / u)
      let input := val (inputOperand u consumed snap)
      { target := wordsOf c.width.bits c.k input, consumed := consumed, leftover := input / 2 ^ c.kbits } := by
  cases wide with
  | false => exact pack_inputOperand c.width.bits c.k 32 len h snap
  | true => exact pack_inputOperand c.width.bits c.k 64 len h snap

theorem val_inputOperand_lt {u len : Nat} (h : len ≤ 8) (snap : Staging) :
    val (inputOperand u len snap) < 2 ^ (len * u) := by
  have hlt := val_lt (inputOperand u len snap)
  rwa [inputOperand_length h] at hlt

theorem kbits_cases (c : Cfg) : c.kbits = 32 ∨ c.kbits = 64 ∨ c.kbits = 128 ∨ c.kbits = 256 := by
  have hK : c.kbits = c.k * c.width.bits := rfl
  rcases c.k_cases with hk | hk | hk <;> rcases c.v_cases with hv | hv <;> rw [hK, hk, hv] <;> decide

/-- The least number of input words that fill the key fills it exactly, but for 64-bit words and a 32-bit key (R144). -/
theorem wide_of_kbits_lt {c : Cfg} {wide : Bool} {len : Nat}
    (h : c.kbits < min len ((c.kbits + (if wide then 64 else 32) - 1) / (if wide then 64 else 32)) *
      (if wide then 64 else 32)) : wide = true ∧ c.kbits = 32 := by
  have hk := kbits_cases c
  cases wide with
  | false => simp only [Bool.false_eq_true, if_false] at h; omega
  | true => simp only [if_true] at h; exact ⟨rfl, by omega⟩

/-- Settles O46: leftover bits mean that the consumed words reach beyond KBITS. -/
theorem seedRangeRejects : Obligations.SeedRangeRejects := by
  intro s p strict wide len hp u consumed input
  refine ⟨fun hlen => ?_, fun hlen hstrict hover => ⟨?_, ?_⟩⟩
  · have hbody : commandBody s.cfg s.eng s.res p.snap (.seedRange strict wide len) =
        .error (.illegal .lengthOutOfRange) := if_pos hlen
    exact exec_error hp hbody
  · have hleft : (packedRange s.cfg wide len.toNat p.snap).leftover ≠ 0 := by
      rw [packedRange_eq s.cfg wide hlen]
      exact Nat.ne_of_gt (Nat.div_pos hover (Nat.two_pow_pos _))
    have hbody : commandBody s.cfg s.eng s.res p.snap (.seedRange strict wide len) = .error .leftoverRange :=
      (if_neg (Nat.not_lt.mpr hlen)).trans (if_pos ⟨hstrict, hleft⟩)
    exact exec_error hp hbody
  · have hconsumed : consumed ≤ 8 := le_trans (Nat.min_le_left _ _) hlen
    have hinput : input < 2 ^ (consumed * u) := val_inputOperand_lt hconsumed p.snap
    exact wide_of_kbits_lt (Nat.pow_lt_pow_iff_right (by omega) |>.mp (lt_of_le_of_lt hover hinput))

end Sys2Proof.Machine
end

section
/-! PROOFS. The round trip of serialization: what the views read, what a host stages from it, and what LOAD then
installs (R239, R240, R275). -/
namespace Sys2Proof.Machine

/-! ### Groups of registers that hold a sequence -/

theorem map_quadGet_finRange (n : Nat) (q : Quad) :
    ((List.finRange 4).take n).map (quadGet q) = (quadRegs q).take n := by
  rw [List.map_take]
  rfl

/-- The first registers of the group that holds a sequence are the sequence's words (R36). -/
theorem quadRegs_hold_take {v n : Nat} {x : Seq v} (hn : n ≤ 4) (hx : x.length = n) :
    (quadRegs (hold x)).take n = x.map (BitVec.setWidth 64) := by
  subst hx
  match x, hn with
  | [], _ => rfl
  | [_], _ => rfl
  | [_, _], _ => rfl
  | [_, _, _], _ => rfl
  | [_, _, _, _], _ => rfl

/-! ### The saved words and the staging registers -/

@[simp] theorem ctrSeq_length (c : Cfg) (e : Engine) : (ctrSeq c e).length = c.n := seqOf_length c.n_le _

@[simp] theorem keySeq_length (c : Cfg) (e : Engine) : (keySeq c e).length = c.k := seqOf_length c.k_le _

theorem seqOf_hold_ctrSeq (c : Cfg) (e : Engine) : seqOf c.width.bits c.n (hold (ctrSeq c e)) = ctrSeq c e :=
  seqOf_hold c.n_le c.v_le (ctrSeq_length c e)

theorem seqOf_hold_keySeq (c : Cfg) (e : Engine) : seqOf c.width.bits c.k (hold (keySeq c e)) = keySeq c e :=
  seqOf_hold c.k_le c.v_le (keySeq_length c e)

/-- The saved words are the cursor, the words of ST.CTR and the words of ST.KEY (R239). -/
theorem serialize_eq (e : State) :
    serialize e =
      e.eng.cursor.setWidth 64 ::
        ((ctrSeq e.cfg e.eng).map (BitVec.setWidth 64) ++ (keySeq e.cfg e.eng).map (BitVec.setWidth 64)) := by
  rw [← quadRegs_hold_take e.cfg.n_le (ctrSeq_length e.cfg e.eng),
    ← quadRegs_hold_take e.cfg.k_le (keySeq_length e.cfg e.eng), ← map_quadGet_finRange, ← map_quadGet_finRange]
  rfl

/-- The saved words staged for LOAD: the cursor in ARG, and the groups that hold counter and key (R239, R240). -/
theorem stageState_serialize (e : State) (stg : Staging) :
    stageState e.cfg.n (serialize e) stg =
      { stg with
        arg := e.eng.cursor.setWidth 64
        ctrin := hold (ctrSeq e.cfg e.eng)
        keyin := hold (keySeq e.cfg e.eng) } := by
  have hlen : ((ctrSeq e.cfg e.eng).map (BitVec.setWidth 64)).length = e.cfg.n := by simp
  rw [serialize_eq, stageState, Nat.add_comm, List.drop_succ_cons, List.drop_succ_cons, List.drop_zero,
    List.take_left' hlen, List.drop_left' hlen]
  rfl

/-! ### LOAD -/

/-- What LOAD of a saved state stages in a block with any engine: the saved cursor, counter and key (R240). -/
theorem stages_load_serialize {e : State} (he : EngineInv e.cfg e.eng) (f : Engine) (r : Results) (stg : Staging) :
    Stages e.cfg f r (stageState e.cfg.n (serialize e) stg) .load
      (loadEngine e.cfg e.eng.cursor.toNat (ctrSeq e.cfg e.eng) (keySeq e.cfg e.eng) f, r) := by
  have harg : (e.eng.cursor.setWidth 64).toNat = e.eng.cursor.toNat := toNat_setWidth_of_le (by omega) _
  have hload := Stages.load (c := e.cfg) (e := f) (r := r) (snap := stageState e.cfg.n (serialize e) stg)
  rw [stageState_serialize] at hload ⊢
  simp only [keyOperand, ctrOperand, seqOf_hold_keySeq, seqOf_hold_ctrSeq, harg] at hload
  exact hload he.cursorRange he.marker

/-- A loaded engine equals the one whose cursor, counter and key it was given (R275). -/
theorem engineEq_loadEngine (c : Cfg) (e f : Engine) :
    engineEq c (loadEngine c e.cursor.toNat (ctrSeq c e) (keySeq c e) f) e = true := by
  have hctr : ctrSeq c (loadEngine c e.cursor.toNat (ctrSeq c e) (keySeq c e) f) = ctrSeq c e :=
    seqOf_hold_ctrSeq c e
  have hkey : keySeq c (loadEngine c e.cursor.toNat (ctrSeq c e) (keySeq c e) f) = keySeq c e :=
    seqOf_hold_keySeq c e
  simp [engineEq, isEqual, hctr, hkey]

/-- In the fresh phase the recomputed block is the cached one, by cache coherence, so the loaded engine is the saved
one (I1 of R34, R240). -/
theorem loadEngine_eq_of_fresh {c : Cfg} {e : Engine} (he : EngineInv c e) (hlt : e.cursor.toNat < c.nresult)
    (f : Engine) : loadEngine c e.cursor.toNat (ctrSeq c e) (keySeq c e) f = e := by
  have hkey : hold (keySeq c e) = e.key := he.keyFits
  have hctr : hold (ctrSeq c e) = e.ctr := he.ctrFits
  have hblk : hold (blkSeq c e) = e.blk := he.blkFits
  rw [loadEngine, if_pos hlt, ← he.coherent hlt, hkey, hctr, hblk, BitVec.ofNat_toNat, BitVec.setWidth_eq]

/-- Settles O52: the staged operands are the saved cursor, counter and key, which pass LOAD's checks by the invariant. -/
theorem loadOfSavedStateRestores : Obligations.LoadOfSavedStateRestores := by
  intro e s he hcfg _
  have hbody : commandBody s.cfg s.eng s.res (stageState e.cfg.n (serialize e) s.stg) .load =
      .ok (loadEngine e.cfg e.eng.cursor.toNat (ctrSeq e.cfg e.eng) (keySeq e.cfg e.eng) s.eng, s.res) := by
    rw [hcfg]
    exact commandBody_of_stages (stages_load_serialize he.engine s.eng s.res s.stg)
  exact ⟨_, exec_ok (s := accept (encode .load) { s with stg := stageState e.cfg.n (serialize e) s.stg }) rfl hbody,
    rfl, engineEq_loadEngine e.cfg e.eng s.eng, fun hlt => loadEngine_eq_of_fresh he.engine hlt s.eng⟩

end Sys2Proof.Machine
end

section
/-! PROOFS. The word-sequence datapath: the carry loop, extraction and packing as slices of one integer, and the
clearing of high bits (R144, R148, R149, R150, R153, R154). -/
namespace Sys2Proof.Machine

/-! ### The word-serial increment (R150) -/

/-- An increment inside the window leaves the sequence's integer within its words. -/
theorem val_add_lt_of_window {v h k : Nat} {x : Seq v} (hh : h ≤ x.length * v) (hwin : lowPart h x + k < 2 ^ h) :
    val x + k < 2 ^ (x.length * v) := by
  have hincr := incr_eq_some_iff.mpr ⟨hwin, rfl⟩
  obtain ⟨hlow, hhigh, hlen, -⟩ := incr_spec hh hincr
  generalize wordsOf v x.length _ = y at hlow hhigh hlen
  have hx := high_low h x
  have hy := high_low h y
  have hlt := val_lt y
  rw [hhigh, hlow] at hy
  rw [hlen] at hlt
  omega

/-- The carry loop carries nothing out when the sum fits (R150). -/
theorem addCarry_carry_eq_zero {v k : Nat} {x : Seq v} (h : val x + k < 2 ^ (x.length * v)) :
    (addCarry x k).2 = 0 := by
  have hsum := addCarry_sum x k
  by_contra hne
  have : 2 ^ (x.length * v) ≤ 2 ^ (x.length * v) * (addCarry x k).2 :=
    Nat.le_mul_of_pos_right _ (Nat.pos_of_ne_zero hne)
  omega

theorem val_addCarry {v k : Nat} {x : Seq v} (h : (addCarry x k).2 = 0) : val (addCarry x k).1 = val x + k := by
  have hsum := addCarry_sum x k
  rwa [h, Nat.mul_zero, Nat.add_zero] at hsum

/-- A sum keeps the bits from h up exactly when the low h bits have room for it (R149, R150). -/
theorem add_div_eq_highPart_iff {v : Nat} (h k : Nat) (x : Seq v) :
    (val x + k) / 2 ^ h = highPart h x ↔ lowPart h x + k < 2 ^ h := by
  rw [← high_low h x, Nat.add_assoc, Nat.mul_comm, Nat.mul_add_div (Nat.two_pow_pos h), Nat.add_eq_left,
    Nat.div_eq_zero_iff_lt (Nat.two_pow_pos h)]

/-- The window test of the carry loop passes exactly when the increment stays inside the window (R150). -/
theorem serial_window_iff {v h : Nat} {x : Seq v} (k : Nat) (hh : h ≤ x.length * v) :
    (highPart h (addCarry x k).1 = highPart h x ∧ (addCarry x k).2 = 0) ↔ lowPart h x + k < 2 ^ h := by
  constructor
  · rintro ⟨hhigh, hcarry⟩
    rwa [highPart, val_addCarry hcarry, add_div_eq_highPart_iff] at hhigh
  · intro hwin
    have hcarry := addCarry_carry_eq_zero (val_add_lt_of_window hh hwin)
    refine ⟨?_, hcarry⟩
    rwa [highPart, val_addCarry hcarry, add_div_eq_highPart_iff]

/-- Settles O30: the two window tests agree, and inside the window both give the words of the sum. -/
theorem serialIncrementAgrees : Obligations.SerialIncrementAgrees := by
  intro v h x k hh
  have hiff := serial_window_iff k hh
  by_cases hwin : lowPart h x + k < 2 ^ h
  · obtain ⟨hhigh, hcarry⟩ := hiff.mpr hwin
    have hwords : (addCarry x k).1 = wordsOf v x.length (val x + k) := by
      rw [← val_addCarry hcarry, wordsOf_val_of_length (addCarry_length x k)]
    have hsome : incr h x k = some (addCarry x k).1 :=
      incr_eq_some_iff.mpr ⟨hwin, by rw [← Nat.add_assoc, high_low, hwords]⟩
    rw [hsome, incrSerial, if_neg (by simp [hhigh, hcarry])]
  · have hnone : incr h x k = none := incr_eq_none_iff.mpr (Nat.not_lt.mp hwin)
    rw [hnone, incrSerial, if_pos (by rwa [← hiff, not_and_or] at hwin)]

/-! ### Slices (R153, R154) -/

/-- A slice inside a slice is a slice. -/
theorem mod_div_mod_pow {a b m : Nat} (x : Nat) (h : a + b ≤ m) :
    x % 2 ^ m / 2 ^ a % 2 ^ b = x / 2 ^ a % 2 ^ b := by
  have hm : 2 ^ m = 2 ^ a * 2 ^ (m - a) := by rw [← pow_add]; congr 1; omega
  rw [hm, Nat.mod_mul_right_div_self, Nat.mod_mod_of_dvd _ (Nat.pow_dvd_pow 2 (by omega))]

/-- The first regime of R154: q results of w bits in each word. -/
theorem word_slice {w q : Nat} (n : Nat) (blk : Seq (w * q)) (hq : 0 < q) :
    (blk.getD (n / q) 0).toNat / 2 ^ (n % q * w) % 2 ^ w = val blk / 2 ^ (n * w) % 2 ^ w := by
  have hfit : n % q * w + w ≤ w * q := by
    have : (n % q + 1) * w ≤ q * w := Nat.mul_le_mul_right w (Nat.mod_lt n hq)
    rw [Nat.mul_comm w q]; rwa [Nat.add_one_mul] at this
  have hpos : n / q * (w * q) + n % q * w = n * w := by
    calc n / q * (w * q) + n % q * w = (q * (n / q) + n % q) * w := by ring
      _ = n * w := by rw [Nat.div_add_mod]
  rw [toNat_getD, mod_div_mod_pow _ hfit, Nat.div_div_eq_div_mul, ← pow_add, hpos]

/-- The third regime of R154: q consecutive words make one result. -/
theorem words_slice {v : Nat} (q n : Nat) (blk : Seq v) :
    val ((blk.drop (n * q)).take q) = val blk / 2 ^ (n * (v * q)) % 2 ^ (v * q) := by
  rw [val_take, val_drop, Nat.mul_assoc, Nat.mul_comm q v]

/-- Settles O31: one case for each regime. -/
theorem extractionRegimesAgree : Obligations.ExtractionRegimesAgree := by
  intro v w n blk hv hw hdvd _
  apply BitVec.eq_of_toNat_eq
  rw [toNat_atW, atWords]
  rcases Nat.lt_trichotomy w v with hlt | rfl | hgt
  · obtain ⟨q, rfl⟩ := hdvd.resolve_right fun h => absurd (Nat.le_of_dvd hw h) (by omega)
    have hq : 0 < q := Nat.pos_of_mul_pos_left hv
    rw [if_pos hlt, Nat.mul_div_cancel_left q hw, BitVec.toNat_ofNat, word_slice n blk hq]
  · rw [if_neg (Nat.lt_irrefl w), if_pos rfl, BitVec.toNat_ofNat, toNat_getD, Nat.mod_mod]
  · obtain ⟨q, rfl⟩ := hdvd.resolve_left fun h => absurd (Nat.le_of_dvd hv h) (by omega)
    rw [if_neg (by omega), if_neg (by omega), Nat.mul_div_cancel_left q hv, BitVec.toNat_ofNat, words_slice,
      Nat.mod_mod]

/-! ### Packing (R144) -/

/-- The target's integer is that of the consumed words, cut to the target's width (R144). -/
theorem val_pack_target (v n : Nat) {u : Nat} (input : Seq u) :
    val (pack v n input).target = val input % 2 ^ ((pack v n input).consumed * u) % 2 ^ (n * v) := by
  rw [pack, val_wordsOf, Nat.mod_mod, val_take]

/-- Settles O32: word i of the input is a slice of the consumed part and of the target. -/
theorem packInvertsExtraction : Obligations.PackInvertsExtraction := by
  intro v n u input i _ hi hfit
  have hconsumed : i * u + u ≤ (pack v n input).consumed * u := by
    rw [← Nat.add_one_mul]; exact Nat.mul_le_mul_right u hi
  rw [Nat.add_one_mul] at hfit
  apply BitVec.eq_of_toNat_eq
  rw [toNat_atW, val_pack_target, mod_div_mod_pow _ hfit, mod_div_mod_pow _ hconsumed, toNat_getD]

/-! ### Clearing the high bits (R148) -/

theorem val_clrHighbits {v : Nat} (h : Nat) (x : Seq v) :
    val (clrHighbits h x).1 = val x % 2 ^ (x.length * v - h) := by
  have hlt : val x % 2 ^ (x.length * v - h) < 2 ^ (x.length * v) :=
    lt_of_lt_of_le (Nat.mod_lt _ (Nat.two_pow_pos _)) (Nat.pow_le_pow_right (by omega) (Nat.sub_le _ _))
  rw [clrHighbits, val_wordsOf, Nat.mod_eq_of_lt hlt]

/-- A sequence has a bit set from position m up exactly when its integer has a quotient by 2^m. -/
theorem val_div_pow_ne_zero_iff {v : Nat} (m : Nat) (x : Seq v) :
    val x / 2 ^ m ≠ 0 ↔ ∃ i, m ≤ i ∧ i < x.length * v ∧ (val x).testBit i = true := by
  rw [Nat.div_ne_zero_iff]
  constructor
  · rintro ⟨-, hle⟩
    obtain ⟨i, him, hbit⟩ := Nat.exists_ge_and_testBit_of_ge_two_pow hle
    have hpow : 2 ^ i < 2 ^ (x.length * v) := lt_of_le_of_lt (Nat.ge_two_pow_of_testBit hbit) (val_lt x)
    exact ⟨i, him, (Nat.pow_lt_pow_iff_right (by omega)).mp hpow, hbit⟩
  · rintro ⟨i, him, -, hbit⟩
    exact ⟨(Nat.two_pow_pos m).ne', le_trans (Nat.pow_le_pow_right (by omega) him) (Nat.ge_two_pow_of_testBit hbit)⟩

/-- Settles O33: clearing is the remainder by 2^(n·V - H), and the report is whether the quotient is not 0. -/
theorem clrHighbitsClearsAndReports : Obligations.ClrHighbitsClearsAndReports := by
  intro v h x _
  refine ⟨wordsOf_length _ _ _, fun i => ?_, ?_⟩
  · rw [val_clrHighbits, Nat.testBit_mod_two_pow]
  · rw [← val_div_pow_ne_zero_iff, clrHighbits, decide_eq_true_eq]

end Sys2Proof.Machine
end

section
/-! PROOFS. What SEED.RANGE and SEED.SEQ write, and when NEXT and DISCARD exhaust the counter (R149, R236, R237, R270,
R271). -/
namespace Sys2Proof.Machine

/-! ### Seeding from packed words -/

/-- Settles O45: the check of the strict form passes, and the packed key is written. -/
theorem seedRangeCompletes : Obligations.SeedRangeCompletes := by
  intro s p strict wide len hp hlen u consumed input hstrict
  have hpacked : packedRange s.cfg wide len.toNat p.snap =
      { target := wordsOf s.cfg.width.bits s.cfg.k input, consumed := consumed
        leftover := input / 2 ^ s.cfg.kbits } := packedRange_eq s.cfg wide hlen p.snap
  have hfits (h : strict = true) : (packedRange s.cfg wide len.toNat p.snap).leftover = 0 := by
    rw [hpacked]; exact Nat.div_eq_of_lt (hstrict h)
  have hstages := Stages.seedRange (e := s.eng) (r := s.res) strict wide len hlen hfits
  rw [hpacked, seedEngine, hold_makeZero] at hstages
  exact exec_ok hp (commandBody_of_stages hstages)

/-- KBITS/32 words of 32 bits are the whole key (R147, R237). -/
theorem makeFromSeedseq_inputOperand (c : Cfg) (snap : Staging) :
    makeFromSeedseq c.width.bits c.k (inputOperand 32 (c.kbits / 32) snap) =
      wordsOf c.width.bits c.k (val (inputOperand 32 (c.kbits / 32) snap)) := by
  obtain ⟨hle, hneed⟩ := c.seedSeq_words
  rw [makeFromSeedseq, packReport, pack_inputOperand _ _ _ _ hle, hneed, Nat.min_self]

/-- Settles O47: SEED.SEQ has no check. -/
theorem seedSeqCompletes : Obligations.SeedSeqCompletes := by
  intro s p hp
  have hstages := Stages.seedSeq (c := s.cfg) (e := s.eng) (r := s.res) (snap := p.snap)
  rw [makeFromSeedseq_inputOperand, seedEngine, hold_makeZero] at hstages
  exact exec_ok hp (commandBody_of_stages hstages)

/-! ### Counter exhaustion -/

/-- CODE 0x01 has one error (R301). -/
theorem errorCode_eq_one_iff (e : CmdError) : errorCode e = 0x01 ↔ e = .counterSpaceExhausted := by
  cases e <;> simp [errorCode]

/-- A command ends with COUNTER_SPACE_EXHAUSTED(0x00) exactly when its body answers that error (R302, R303). -/
theorem exec_eq_counterSpaceExhausted_iff {i : Instr} {s : State} {p : Pending} (hp : s.pend = some p) :
    exec i s = .next (endsWith p 0x01 0x00 s) ↔
      commandBody s.cfg s.eng s.res p.snap i = .error .counterSpaceExhausted := by
  constructor
  · intro h
    obtain ⟨q, hq, ⟨x, -, hend⟩ | ⟨e, he, hend⟩⟩ := exec_eq_next.mp h
    · exact absurd (congrArg (·.status.code) hend) (by simp)
    · have hcode : 0x01 = errorCode e := congrArg (·.status.code) hend
      rw [eq_comm, errorCode_eq_one_iff] at hcode
      obtain rfl : p = q := Option.some.inj (hp.symm.trans hq)
      rw [he, hcode]
  · exact exec_error hp

theorem commandBody_next_eq_error_iff {c : Cfg} {e : Engine} {r : Results} {snap : Staging} :
    commandBody c e r snap .next = .error .counterSpaceExhausted ↔ refill c e = none := by
  simp only [commandBody]
  cases refill c e <;> simp

theorem commandBody_discard_eq_error_iff {c : Cfg} {e : Engine} {r : Results} {snap : Staging} :
    commandBody c e r snap .discard = .error .counterSpaceExhausted ↔
      discardEngine c snap.arg.toNat e = none := by
  simp only [commandBody]
  cases discardEngine c snap.arg.toNat e <;> simp

/-- In the exhausted phase the refill overflows when its increment of 1 does (R270). -/
theorem refill_eq_none_iff {c : Cfg} {e : Engine} (hcursor : e.cursor.toNat = c.nresult) :
    refill c e = none ↔ 2 ^ c.ctrBits ≤ lowPart c.ctrBits (ctrSeq c e) + 1 := by
  rw [refill, if_pos hcursor, ← incr_eq_none_iff]
  cases incr c.ctrBits (ctrSeq c e) 1 <;> simp

theorem discardEngine_eq_none_iff {c : Cfg} {n : Nat} {e : Engine} :
    discardEngine c n e = none ↔
      2 ^ c.ctrBits ≤ lowPart c.ctrBits (ctrSeq c e) + (discardSplit c.nresult e.cursor.toNat n).2 := by
  rw [discardEngine, ← incr_eq_none_iff]
  cases incr c.ctrBits (ctrSeq c e) (discardSplit c.nresult e.cursor.toNat n).2 <;> simp

/-- The number of increments, with the boundary correction in terms of the position (R272). -/
theorem discardSplit_snd {nresult : Nat} (h : 0 < nresult) (cursor n : Nat) :
    (discardSplit nresult cursor n).2 =
      if (cursor + n) % nresult = 0 ∧ nresult ≤ cursor + n then (cursor + n) / nresult - 1
      else (cursor + n) / nresult := by
  simp only [discardSplit, Nat.div_pos_iff, h, true_and, apply_ite Prod.snd]

/-- Settles O56: both commands fail only by an increment that overflows the window. -/
theorem counterSpaceExhausted : Obligations.CounterSpaceExhausted := by
  intro s p hp low t k
  constructor
  · intro hcursor
    rw [exec_eq_counterSpaceExhausted_iff hp, commandBody_next_eq_error_iff, refill_eq_none_iff hcursor]
    rfl
  · rw [exec_eq_counterSpaceExhausted_iff hp, commandBody_discard_eq_error_iff, discardEngine_eq_none_iff,
      discardSplit_snd s.cfg.nresult_pos]
    rfl

end Sys2Proof.Machine
end

section
/-! PROOFS. The PRF datapaths: the Philox key schedule, the rotations, the injectivity of every round and with it of the
PRF, PRF.APPLY, and the known answers (R190 to R207). -/
namespace Sys2Proof.Machine

/-! ### The Philox key schedule (R196) -/

theorem toNat_philoxLane {v : Nat} (weyl key : BitVec v) (r : Nat) :
    (philoxLane weyl key r).toNat = (key.toNat + r * weyl.toNat) % 2 ^ v := by
  induction r with
  | zero => rw [philoxLane, Nat.zero_mul, Nat.add_zero, Nat.mod_eq_of_lt key.isLt]
  | succ r ih => rw [philoxLane, BitVec.toNat_add, ih, Nat.mod_add_mod, Nat.succ_mul, Nat.add_assoc]

/-- Settles O39: the recursion is the definition, the closed form an induction on the round. -/
theorem philoxKeySchedule : Obligations.PhiloxKeySchedule := fun _ weyl key =>
  ⟨rfl, fun r => ⟨rfl, toNat_philoxLane weyl key r⟩⟩

/-! ### Rotations (R200, R201) -/

theorem rotL_eq_rotateLeft {v s : Nat} (h : s < v) (x : BitVec v) : rotL x s = x.rotateLeft s := by
  rw [BitVec.rotateLeft_def, Nat.mod_eq_of_lt h, rotL]
  split
  next hs => simp [hs, BitVec.ushiftRight_eq_zero]
  next => rfl

/-- RotL moves bit i to bit (i + s) mod V. -/
theorem getLsbD_rotL {v s i : Nat} (hs : s < v) (hi : i < v) (x : BitVec v) :
    (rotL x s).getLsbD ((i + s) % v) = x.getLsbD i := by
  rw [rotL_eq_rotateLeft hs, BitVec.getLsbD_rotateLeft, Nat.mod_eq_of_lt hs]
  by_cases hwrap : i + s < v
  · rw [Nat.mod_eq_of_lt hwrap]
    simp [hwrap]
  · have hmod : (i + s) % v = i + s - v := by
      rw [Nat.mod_eq_sub_mod (by omega), Nat.mod_eq_of_lt (by omega)]
    have hlow : i + s - v < s := by omega
    have hback : v - s + (i + s - v) = i := by omega
    simp [hmod, hlow, hback]

/-- Every entry of the rotation tables is a rotation in [1, V) (R201). -/
theorem rotTables_range (width : WordWidth) {j : Nat} (hj : j < 8) :
    (1 ≤ rotTable2 width j ∧ rotTable2 width j < width.bits) ∧
      (1 ≤ rotTable40 width j ∧ rotTable40 width j < width.bits) ∧
      (1 ≤ rotTable41 width j ∧ rotTable41 width j < width.bits) := by
  revert j
  cases width <;> decide

/-- Settles O40: the bit either stays below the top or wraps around once; the tables are finite. -/
theorem rotationsRotate : Obligations.RotationsRotate :=
  ⟨fun _ _ x hs _ hi => getLsbD_rotL hs hi x, fun width _ hj => rotTables_range width hj⟩

/-! ### The PRF is a bijection (R190)

Every round is injective, so the PRF is, and an injective map of a finite set to itself is onto. -/

theorem iterate_injective {α : Type} {round : Nat → α → α} (h : ∀ r, Function.Injective (round r)) (n : Nat) :
    Function.Injective (iterate round n) := by
  induction n with
  | zero => exact fun _ _ hxy => hxy
  | succ n ih => exact (h n).comp ih

/-- Multiplication by an odd multiplier loses nothing modulo 2^V (R194). -/
theorem mulLo_injective {v : Nat} {m : BitVec v} (hm : Odd m.toNat) : Function.Injective (mulLo m) := by
  intro x y h
  have hmod : m.toNat * x.toNat ≡ m.toNat * y.toNat [MOD 2 ^ v] := by
    simpa only [mulLo, BitVec.toNat_ofNat, Nat.ModEq] using congrArg BitVec.toNat h
  have hcoprime : (2 ^ v).gcd m.toNat = 1 := (Nat.coprime_two_left.mpr hm).pow_left v
  exact BitVec.eq_of_toNat_eq ((hmod.cancel_left_of_coprime hcoprime).eq_of_lt_of_lt x.isLt y.isLt)

theorem philoxMultipliers_odd (width : WordWidth) :
    Odd (philoxM2 width).toNat ∧ Odd (philoxM40 width).toNat ∧ Odd (philoxM41 width).toNat := by
  cases width <;> decide

theorem philoxRound2_injective {v : Nat} {m : BitVec v} (hm : Odd m.toNat) (k : BitVec v) :
    Function.Injective (philoxRound2 m k) := by
  rintro ⟨x0, x1⟩ ⟨y0, y1⟩ h
  simp only [philoxRound2, Two.mk.injEq] at h
  obtain ⟨hxor, hmul⟩ := h
  obtain rfl := mulLo_injective hm hmul
  rw [BitVec.xor_right_inj] at hxor
  rw [hxor]

theorem philoxRound4_injective {v : Nat} {m0 m1 : BitVec v} (hm0 : Odd m0.toNat) (hm1 : Odd m1.toNat) (k : Two v) :
    Function.Injective (philoxRound4 m0 m1 k) := by
  rintro ⟨x0, x1, x2, x3⟩ ⟨y0, y1, y2, y3⟩ h
  simp only [philoxRound4, Four.mk.injEq] at h
  obtain ⟨hxor1, hmul1, hxor0, hmul0⟩ := h
  obtain rfl := mulLo_injective hm1 hmul1
  obtain rfl := mulLo_injective hm0 hmul0
  rw [BitVec.xor_left_inj, BitVec.xor_right_inj] at hxor1 hxor0
  rw [hxor1, hxor0]

theorem rotL_injective {v s : Nat} (hs : s < v) : Function.Injective fun x : BitVec v => rotL x s := by
  intro x y h
  refine BitVec.eq_of_getLsbD_eq fun i hi => ?_
  rw [← getLsbD_rotL hs hi x, ← getLsbD_rotL hs hi y, show rotL x s = rotL y s from h]

/-- The sum and the rotated word of a pair give the pair back (R198). -/
theorem eq_of_mix_eq {v s : Nat} (hs : s < v) {p q : Two v} (h0 : (mix s p).x0 = (mix s q).x0)
    (h1 : (mix s p).x1 = (mix s q).x1) : p = q := by
  obtain ⟨p0, p1⟩ := p
  obtain ⟨q0, q1⟩ := q
  simp only [mix] at h0 h1
  rw [h0, BitVec.xor_left_inj] at h1
  obtain rfl := rotL_injective hs h1
  rw [BitVec.add_left_inj] at h0
  rw [h0]

theorem threefryRound2_injective (width : WordWidth) (r : Nat) : Function.Injective (threefryRound2 width r) := by
  obtain ⟨⟨-, hs⟩, -, -⟩ := rotTables_range width (Nat.mod_lt r (by decide : 0 < 8))
  exact fun _ _ h => eq_of_mix_eq hs (congrArg Two.x0 h) (congrArg Two.x1 h)

theorem threefryRound4_injective (width : WordWidth) (r : Nat) : Function.Injective (threefryRound4 width r) := by
  obtain ⟨-, ⟨-, hs0⟩, -, hs1⟩ := rotTables_range width (Nat.mod_lt r (by decide : 0 < 8))
  rintro ⟨x0, x1, x2, x3⟩ ⟨y0, y1, y2, y3⟩ h
  simp only [threefryRound4] at h
  split at h <;> obtain ⟨h0, h1, h2, h3⟩ := Four.mk.inj h
  case isTrue =>
    obtain ⟨rfl, rfl⟩ := Two.mk.inj (eq_of_mix_eq hs0 h0 h1)
    obtain ⟨rfl, rfl⟩ := Two.mk.inj (eq_of_mix_eq hs1 h2 h3)
    rfl
  case isFalse =>
    obtain ⟨rfl, rfl⟩ := Two.mk.inj (eq_of_mix_eq hs0 h0 h3)
    obtain ⟨rfl, rfl⟩ := Two.mk.inj (eq_of_mix_eq hs1 h2 h1)
    rfl

theorem inject2_injective {v : Nat} (ks : Seq v) (s : Nat) : Function.Injective (inject2 ks s) := by
  rintro ⟨x0, x1⟩ ⟨y0, y1⟩ h
  simpa only [inject2, Two.mk.injEq, BitVec.add_left_inj] using h

theorem inject4_injective {v : Nat} (ks : Seq v) (s : Nat) : Function.Injective (inject4 ks s) := by
  rintro ⟨x0, x1, x2, x3⟩ ⟨y0, y1, y2, y3⟩ h
  simpa only [inject4, Four.mk.injEq, BitVec.add_left_inj] using h

theorem threefryStep2_injective (width : WordWidth) (ks : Seq width.bits) (r : Nat) :
    Function.Injective (threefryStep2 width ks r) := by
  intro x y h
  unfold threefryStep2 at h
  split at h
  · exact threefryRound2_injective width r (inject2_injective ks _ h)
  · exact threefryRound2_injective width r h

theorem threefryStep4_injective (width : WordWidth) (ks : Seq width.bits) (r : Nat) :
    Function.Injective (threefryStep4 width ks r) := by
  intro x y h
  unfold threefryStep4 at h
  split at h
  · exact threefryRound4_injective width r (inject4_injective ks _ h)
  · exact threefryRound4_injective width r h

theorem philox2_injective (width : WordWidth) (rounds : Nat) (key : BitVec width.bits) :
    Function.Injective (philox2 width rounds key) := by
  obtain ⟨hm, -, -⟩ := philoxMultipliers_odd width
  exact iterate_injective (fun _ => philoxRound2_injective hm _) rounds

theorem philox4_injective (width : WordWidth) (rounds : Nat) (key : Two width.bits) :
    Function.Injective (philox4 width rounds key) := by
  obtain ⟨-, hm0, hm1⟩ := philoxMultipliers_odd width
  exact iterate_injective (fun _ => philoxRound4_injective hm0 hm1 _) rounds

theorem threefry2_injective (width : WordWidth) (rounds : Nat) (key : Two width.bits) :
    Function.Injective (threefry2 width rounds key) :=
  (iterate_injective (threefryStep2_injective width _) rounds).comp (inject2_injective _ 0)

theorem threefry4_injective (width : WordWidth) (rounds : Nat) (key : Four width.bits) :
    Function.Injective (threefry4 width rounds key) :=
  (iterate_injective (threefryStep4_injective width _) rounds).comp (inject4_injective _ 0)

theorem twoSeq_twoOf {v : Nat} {x : Seq v} (h : x.length = 2) : twoSeq (twoOf x) = x := by
  obtain ⟨a, b, rfl⟩ := List.length_eq_two.mp h
  rfl

theorem fourSeq_fourOf {v : Nat} {x : Seq v} (h : x.length = 4) : fourSeq (fourOf x) = x := by
  match x, h with
  | [_, _, _, _], _ => rfl

theorem twoSeq_injective {v : Nat} : Function.Injective (twoSeq (v := v)) :=
  Function.LeftInverse.injective (g := twoOf) fun _ => rfl

theorem fourSeq_injective {v : Nat} : Function.Injective (fourSeq (v := v)) :=
  Function.LeftInverse.injective (g := fourOf) fun _ => rfl

theorem twoOf_injOn {v : Nat} : Set.InjOn twoOf {x : Seq v | x.length = 2} :=
  Set.LeftInvOn.injOn (f₁' := twoSeq) fun _ => twoSeq_twoOf

theorem fourOf_injOn {v : Nat} : Set.InjOn fourOf {x : Seq v | x.length = 4} :=
  Set.LeftInvOn.injOn (f₁' := fourSeq) fun _ => fourSeq_fourOf

theorem prf_injOn (c : Cfg) (key : Seq c.width.bits) : Set.InjOn (prf c key) {x | x.length = c.n} := by
  unfold prf Params.n
  cases c.prf <;> cases c.count
  case philox.two => exact (twoSeq_injective.comp (philox2_injective _ _ _)).comp_injOn twoOf_injOn
  case philox.four => exact (fourSeq_injective.comp (philox4_injective _ _ _)).comp_injOn fourOf_injOn
  case threefry.two => exact (twoSeq_injective.comp (threefry2_injective _ _ _)).comp_injOn twoOf_injOn
  case threefry.four => exact (fourSeq_injective.comp (threefry4_injective _ _ _)).comp_injOn fourOf_injOn

theorem prf_bijOn (c : Cfg) (key : Seq c.width.bits) :
    Set.BijOn (prf c key) {x | x.length = c.n} {x | x.length = c.n} :=
  ((List.finite_length_eq _ c.n).injOn_iff_bijOn_of_mapsTo fun x _ => prf_length c key x).mp (prf_injOn c key)

/-- Settles O38: the PRF is injective on the finite set of N-word sequences, which it maps to itself. -/
theorem prfIsBijection : Obligations.PrfIsBijection := by
  intro c key
  obtain ⟨-, hinj, hsurj⟩ := prf_bijOn c key
  exact ⟨fun _ _ hx hy h => hinj hx hy h, fun _ hz => hsurj hz⟩

/-! ### PRF.APPLY (R207) -/

/-- Settles O41: the command has no check, and the PRF's M words fill BOUT from word 0. -/
theorem prfApplyCompletes : Obligations.PrfApplyCompletes := by
  intro s p hp
  have hstages := Stages.prfApply (c := s.cfg) (e := s.eng) (r := s.res) (snap := p.snap)
  refine ⟨_, exec_ok hp (commandBody_of_stages hstages), fun n => ?_⟩
  rw [quadGet_hold _ s.cfg.v_le]
  split
  next => rfl
  next hn =>
    have hlen : (prf s.cfg (keyOperand s.cfg p.snap) (ctrOperand s.cfg p.snap)).length ≤ n.val := by
      rw [prf_length, ← Cfg.m_eq]
      exact Nat.not_lt.mp hn
    rw [List.getD_eq_default _ _ hlen]
    rfl

/-! ### Known answers -/

/-- Settles O37: each answer is evaluated. -/
theorem prfKnownAnswers : Obligations.PrfKnownAnswers :=
  ⟨rfl, rfl, rfl, rfl, rfl, rfl, rfl, rfl⟩

end Sys2Proof.Machine
end


section
/-! PROOFS. The marker field and the encoded key as slices of the key's integer, what the direct-value seeds reject,
SEED.SEQ as a SEED.RANGE, RESTART and LOAD (R230 to R241). -/
namespace Sys2Proof.Machine

/-! ### The marker (R230 to R232) -/

/-- check_key fails exactly when the marker field is not 0 (R232). -/
theorem keyRejected_iff {c : Cfg} {key : Seq c.width.bits} (hkey : key.length = c.k) :
    keyRejected c key = true ↔ markerField c key ≠ 0 := by
  rw [← Bool.not_eq_false, ne_eq, keyRejected_eq_false_iff hkey]

/-- Settles O34: the field is a quotient of the key's integer, and clearing the high bits reports whether it is 0. -/
theorem markerFieldIsKeyTop : Obligations.MarkerFieldIsKeyTop := fun c key hkey =>
  ⟨markerField_eq_div c key hkey, keyRejected_iff hkey⟩

/-- enc_key keeps the bits below the marker field (R231). -/
theorem testBit_val_encKey {c : Cfg} {key : Seq c.width.bits} (hkey : key.length = c.k) {i : Nat}
    (hi : i < c.kbits - c.cbb) : (val (encKey c key)).testBit i = (val key).testBit i := by
  have hlow : val key % 2 ^ (c.kbits - c.cbb) < 2 ^ (c.kbits - c.cbb) := Nat.mod_lt _ (Nat.two_pow_pos _)
  rw [val_encKey c key hkey, Nat.add_comm, Nat.testBit_two_pow_mul_add _ hlow, if_pos hi, Nat.testBit_mod_two_pow,
    decide_eq_true hi, Bool.true_and]

/-- Settles O35: the encoded key's integer is the nominal one below the field, and CtrBits - 1 in it. -/
theorem encodedKeyCarriesMarker : Obligations.EncodedKeyCarriesMarker := fun c key hkey =>
  ⟨(encKey_length c key).trans hkey, markerField_encKey c key hkey, fun _ => testBit_val_encKey hkey⟩

/-! ### Collision avoidance (R241) -/

/-- The marker read from the registers that hold an encoded key is CtrBits - 1 (R231). -/
theorem markerField_held_encKey (c : Cfg) {key : Seq c.width.bits} (hkey : key.length = c.k) :
    markerField c (seqOf c.width.bits c.k (hold (encKey c key))) = c.ctrBits - 1 := by
  rw [seqOf_hold c.k_le c.v_le ((encKey_length c key).trans hkey), markerField_encKey c key hkey]

/-- Where the marker field stands in the registers does not depend on CtrBits (R230). -/
theorem markerField_seqOf_congr {c d : Cfg} (h : d.toParams = { c.toParams with ctrBits := d.ctrBits }) (q : Quad) :
    markerField d (seqOf d.width.bits d.k q) = markerField c (seqOf c.width.bits c.k q) := by
  obtain ⟨p, hp⟩ := d
  dsimp only at h
  generalize p.ctrBits = n at h
  subst h
  rfl

/-- Settles O36: the two held keys carry the markers CtrBits - 1, in the same place. -/
theorem encodedKeysOfWindowsDiffer : Obligations.EncodedKeysOfWindowsDiffer := by
  intro c d q hparams hne heq
  have hc := markerField_held_encKey c (seqOf_length c.k_le q)
  have hd := markerField_held_encKey d (seqOf_length d.k_le q)
  rw [← heq, markerField_seqOf_congr hparams, hc] at hd
  have := c.ctrBits_pos
  have := d.ctrBits_pos
  omega

/-! ### What the direct-value seeds reject (R232 to R235, R307) -/

theorem commandBody_seedKey_keyRange {c : Cfg} {e : Engine} {r : Results} {snap : Staging} {b : Bool}
    (hkey : markerField c (keyOperand c snap) ≠ 0) : commandBody c e r snap (.seedKey b) = .error .keyRange :=
  if_pos ((keyRejected_iff (keyOperand_length c snap)).mpr hkey)

theorem commandBody_seedKey_baseRange {c : Cfg} {e : Engine} {r : Results} {snap : Staging} {b : Bool}
    (hkey : markerField c (keyOperand c snap) = 0) (hbase : b = true ∧ val (ctrOperand c snap) % 2 ^ c.ctrBits ≠ 0) :
    commandBody c e r snap (.seedKey b) = .error .baseRange := by
  have hpass : ¬keyRejected c (keyOperand c snap) = true := by
    rw [keyRejected_iff (keyOperand_length c snap)]; exact not_not.mpr hkey
  exact (if_neg hpass).trans (if_pos ((baseRejected_iff c b snap).mpr hbase))

/-- An ARG of at least 2^KBITS is no key (R143, R235). -/
theorem commandBody_seedInt_intRange {c : Cfg} {e : Engine} {r : Results} {snap : Staging} {b : Bool}
    (harg : 2 ^ c.kbits ≤ snap.arg.toNat) : commandBody c e r snap (.seedInt b) = .error .intRange := by
  have hnone : makeFromInt c.width.bits c.k snap.arg.toNat = none := if_pos harg
  simp only [commandBody, hnone]

/-- The snapshot with the words of ARG in KEYIN. -/
def argAsKeyin (c : Cfg) (snap : Staging) : Staging :=
  { snap with keyin := hold (wordsOf c.width.bits c.k snap.arg.toNat) }

@[simp] theorem keyOperand_argAsKeyin (c : Cfg) (snap : Staging) :
    keyOperand c (argAsKeyin c snap) = wordsOf c.width.bits c.k snap.arg.toNat :=
  seqOf_hold c.k_le c.v_le (wordsOf_length _ _ _)

@[simp] theorem ctrOperand_argAsKeyin (c : Cfg) (snap : Staging) :
    ctrOperand c (argAsKeyin c snap) = ctrOperand c snap := rfl

/-- SEED.INT with an ARG that fits KBITS is SEED.KEY with ARG's words as the key (R235). -/
theorem commandBody_seedInt_eq_seedKey {c : Cfg} {e : Engine} {r : Results} {snap : Staging} {b : Bool}
    (harg : snap.arg.toNat < 2 ^ c.kbits) :
    commandBody c e r snap (.seedInt b) = commandBody c e r (argAsKeyin c snap) (.seedKey b) := by
  have hsome : makeFromInt c.width.bits c.k snap.arg.toNat = some (wordsOf c.width.bits c.k snap.arg.toNat) :=
    makeFromInt_of_lt harg
  simp only [commandBody, hsome, keyOperand_argAsKeyin]
  rfl

/-- An integer that fits KBITS and reaches the marker field has a bit in it. -/
theorem markerField_wordsOf_ne_zero {c : Cfg} {a : Nat} (hfits : a < 2 ^ c.kbits)
    (ha : 2 ^ (c.kbits - c.cbb) ≤ a) : markerField c (wordsOf c.width.bits c.k a) ≠ 0 := by
  rw [markerField_eq_div c _ (wordsOf_length _ _ _), val_wordsOf]
  have hmod : a % 2 ^ (c.k * c.width.bits) = a := Nat.mod_eq_of_lt hfits
  rw [hmod]
  exact (Nat.div_pos ha (Nat.two_pow_pos _)).ne'

/-- Only a 32-bit key is narrower than ARG (R143). -/
theorem kbits_eq_of_le_arg {c : Cfg} {x : Reg} (h : 2 ^ c.kbits ≤ x.toNat) : c.kbits = 32 := by
  have hlt : c.kbits < 64 := (Nat.pow_lt_pow_iff_right (by omega)).mp (lt_of_le_of_lt h x.isLt)
  have := kbits_cases c
  omega

/-- Settles O44: the checks of SEED.KEY in their order, and SEED.INT as make_from_int before them. -/
theorem directSeedsReject : Obligations.DirectSeedsReject := by
  intro s p b hp badBase key arg
  refine ⟨fun hkey => ?_, fun hkey hbase => ?_, fun harg => ⟨?_, kbits_eq_of_le_arg harg⟩, fun hfits harg => ?_,
    fun harg hbase => ?_⟩
  · exact exec_error hp (commandBody_seedKey_keyRange hkey)
  · exact exec_error hp (commandBody_seedKey_baseRange hkey hbase)
  · exact exec_error hp (commandBody_seedInt_intRange harg)
  · have hmarker : markerField s.cfg (keyOperand s.cfg (argAsKeyin s.cfg p.snap)) ≠ 0 := by
      rw [keyOperand_argAsKeyin]; exact markerField_wordsOf_ne_zero hfits harg
    exact exec_error hp ((commandBody_seedInt_eq_seedKey hfits).trans (commandBody_seedKey_keyRange hmarker))
  · have hfits : arg < 2 ^ s.cfg.kbits := lt_of_lt_of_le harg (Nat.pow_le_pow_right (by omega) (Nat.sub_le _ _))
    have hmarker : markerField s.cfg (keyOperand s.cfg (argAsKeyin s.cfg p.snap)) = 0 := by
      rw [keyOperand_argAsKeyin]; exact markerField_wordsOf_of_lt harg
    exact exec_error hp ((commandBody_seedInt_eq_seedKey hfits).trans (commandBody_seedKey_baseRange hmarker hbase))

/-! ### SEED.SEQ (R237) -/

/-- KBITS/32 fits the L field (R237). -/
theorem toNat_seedSeq_len (c : Cfg) : (BitVec.ofNat 4 (c.kbits / 32)).toNat = c.kbits / 32 := by
  have := c.seedSeq_words.1
  rw [BitVec.toNat_ofNat]
  exact Nat.mod_eq_of_lt (by omega)

/-- Packing the KBITS/32 words of SEED.SEQ consumes them all (R144, R237). -/
theorem packedRange_seedSeq_consumed (c : Cfg) (snap : Staging) :
    (packedRange c false (c.kbits / 32) snap).consumed = c.kbits / 32 := by
  obtain ⟨hle, hneed⟩ := c.seedSeq_words
  have hpack : packedRange c false (c.kbits / 32) snap = _ := pack_inputOperand _ _ _ _ hle snap
  rw [hpack, hneed, Nat.min_self]

/-- Both commands stage the packed words and their number. -/
theorem commandBody_seedSeq (c : Cfg) (e : Engine) (r : Results) (snap : Staging) :
    commandBody c e r snap .seedSeq =
      commandBody c e r snap (.seedRange false false (BitVec.ofNat 4 (c.kbits / 32))) := by
  have hlen : (BitVec.ofNat 4 (c.kbits / 32)).toNat ≤ 8 := by rw [toNat_seedSeq_len]; exact c.seedSeq_words.1
  have hrange := commandBody_of_stages
    (.seedRange (c := c) (e := e) (r := r) (snap := snap) false false _ hlen (fun h => nomatch h))
  rw [hrange, toNat_seedSeq_len, packedRange_seedSeq_consumed]
  rfl

/-- Settles O48: the two commands have the same body in every state. -/
theorem seedSeqIsSeedRange : Obligations.SeedSeqIsSeedRange := by
  intro s
  simp only [exec_eq, commandBody_seedSeq]

/-! ### RESTART (R238) -/

/-- Settles O49: check_base decides, and the counter operand is what B = 1 selects as the base. -/
theorem restartCompletes : Obligations.RestartCompletes := by
  intro s p hp
  constructor
  · intro hbase
    have hpass : baseRejected s.cfg (ctrOperand s.cfg p.snap) = false :=
      baseRejected_eq_false (b := true) fun _ => hbase
    exact exec_ok hp (commandBody_of_stages (.restart hpass))
  · intro hbase
    have hfail := (baseRejected_iff s.cfg true p.snap).mpr ⟨rfl, hbase⟩
    have hbody : commandBody s.cfg s.eng s.res p.snap .restart = .error .baseRange := if_pos hfail
    exact exec_error hp hbody

/-! ### LOAD (R240) -/

/-- Settles O50: both checks pass, and the loaded engine is written. -/
theorem loadCompletes : Obligations.LoadCompletes := by
  intro s p hp hcursor hmarker
  exact exec_ok hp (commandBody_of_stages (.load hcursor hmarker))

/-- Settles O51: the cursor is checked before the marker. -/
theorem loadRejects : Obligations.LoadRejects := by
  intro s p hp
  constructor
  · intro hcursor
    have hbody : commandBody s.cfg s.eng s.res p.snap .load = .error .malformedCursor := if_pos hcursor
    exact exec_error hp hbody
  · intro hcursor hmarker
    have hbody : commandBody s.cfg s.eng s.res p.snap .load = .error .malformedMarker :=
      (if_neg (Nat.not_lt.mpr hcursor)).trans (if_pos hmarker)
    exact exec_error hp hbody

end Sys2Proof.Machine
end

section
/-! PROOFS. What NOP and CLRST do, the base part that every command but a seed, RESTART and LOAD keeps, and DISCARD's
whole next state (R271 to R274, R278). -/
namespace Sys2Proof.Machine

/-! ### NOP and CLRST (R273, R274) -/

/-- Settles O28: the body stages nothing. -/
theorem nopCompletes : Obligations.NopCompletes := by
  intro s p hp
  refine ⟨exec_ok hp (commandBody_of_stages .nop), fun hcmd => ?_⟩
  rw [hcmd]; decide

/-- A write to CMD of an idle block is an acceptance (R343). -/
theorem regWrite_cmd_idle {s : State} (hp : s.pend = none) (cw : Reg) : regWrite 0x00 cw s = accept cw s :=
  if_neg (by simp [busy, hp])

/-- A write to CMD of a busy block is dropped (R344). -/
theorem regWrite_cmd_busy {s : State} {p : Pending} (hp : s.pend = some p) (cw : Reg) :
    regWrite 0x00 cw s = { s with status := { s.status with dropped := true } } :=
  if_pos (by simp [busy, hp])

/-- Settles O29: only the acceptance of CLRST's one word clears DROPPED, and from then on the block is busy. -/
theorem clrstClearsDropped : Obligations.ClrstClearsDropped := by
  refine ⟨fun s hp => ?_, fun s p hp => exec_ok hp (commandBody_of_stages .clrst), fun s cw hp hcw => ?_⟩
  · rw [regWrite_cmd_idle hp]
    refine ⟨?_, fun x => ?_⟩
    · rw [accept_dropped, droppedAfterAccept_eq, if_pos rfl]
    · rw [regWrite_cmd_busy (accept_pend _ _)]
  · rw [regWrite_cmd_idle hp, accept_dropped, droppedAfterAccept_eq, if_neg hcw]

/-! ### The base part (R278) -/

theorem ctrSeq_of_ctr_eq_hold {c : Cfg} {e : Engine} {ctr : Seq c.width.bits} (h : e.ctr = hold ctr)
    (hlen : ctr.length = c.n) : ctrSeq c e = ctr := by
  rw [ctrSeq, h, seqOf_hold c.n_le c.v_le hlen]

theorem refill_highPart {c : Cfg} {e f : Engine} (h : refill c e = some f) :
    highPart c.ctrBits (ctrSeq c f) = highPart c.ctrBits (ctrSeq c e) := by
  obtain ⟨-, rfl⟩ | ⟨-, ctr, hincr, rfl⟩ := refill_eq_some h
  · rfl
  · obtain ⟨-, hhigh, hlen, -⟩ := incr_ctrSeq hincr
    rw [ctrSeq_of_ctr_eq_hold rfl hlen, hhigh]

/-- The counter after DISCARD n (R271). -/
theorem discardEngine_ctrSeq {c : Cfg} {n : Nat} {e f : Engine} (h : discardEngine c n e = some f) :
    lowPart c.ctrBits (ctrSeq c f) =
        lowPart c.ctrBits (ctrSeq c e) + (discardSplit c.nresult e.cursor.toNat n).2 ∧
      highPart c.ctrBits (ctrSeq c f) = highPart c.ctrBits (ctrSeq c e) := by
  obtain ⟨ctr, hincr, -, hctr, -⟩ := discardEngine_eq_some h
  obtain ⟨hlow, hhigh, hlen, -⟩ := incr_ctrSeq hincr
  rw [ctrSeq_of_ctr_eq_hold hctr hlen]
  exact ⟨hlow, hhigh⟩

/-- Settles O27: of the commands that are no seed, RESTART or LOAD, only NEXT and DISCARD write the counter, and both
by an increment inside the window. -/
theorem basePartKept : Obligations.BasePartKept := by
  intro i s t h hne
  obtain ⟨p, -, ⟨⟨e, r⟩, hx, rfl⟩ | ⟨err, rfl⟩⟩ := exec_next_cases h
  · cases hx with
    | next f hrefill => exact absurd (refill_highPart hrefill) hne
    | discard f hdiscard => exact absurd (discardEngine_ctrSeq hdiscard).2 hne
    | nop | clrst | prfApply => exact absurd rfl hne
    | _ => simp
  · exact absurd rfl hne

/-! ### DISCARD's whole next state (R271, R272) -/

/-- The cursor after a discard, with the boundary correction in terms of the position (R272). -/
theorem discardSplit_fst {nresult : Nat} (h : 0 < nresult) (cursor n : Nat) :
    (discardSplit nresult cursor n).1 =
      if (cursor + n) % nresult = 0 ∧ nresult ≤ cursor + n then nresult else (cursor + n) % nresult := by
  simp only [discardSplit, Nat.div_pos_iff, h, true_and, apply_ite Prod.fst]

theorem discardEngine_of_lt {c : Cfg} {n : Nat} {e : Engine} {cursor k : Nat}
    (hsplit : discardSplit c.nresult e.cursor.toNat n = (cursor, k))
    (h : val (ctrSeq c e) % 2 ^ c.ctrBits + k < 2 ^ c.ctrBits) :
    discardEngine c n e = some {
      key := e.key
      ctr := hold (wordsOf c.width.bits c.n (val (ctrSeq c e) + k))
      cursor := BitVec.ofNat 9 cursor
      blk :=
        if 0 < k ∧ cursor < c.nresult then
          hold (prf c (keySeq c e) (wordsOf c.width.bits c.n (val (ctrSeq c e) + k)))
        else e.blk } := by
  rw [discardEngine, hsplit]
  simp only [incr_ctrSeq_eq h]

/-- Settles O55: inside the window the increment adds to the whole counter. -/
theorem discardCompletes : Obligations.DiscardCompletes := by
  intro s p hp t boundary cursor k ctr hroom
  have hsplit : discardSplit s.cfg.nresult s.eng.cursor.toNat p.snap.arg.toNat = (cursor, k) :=
    Prod.ext (discardSplit_fst s.cfg.nresult_pos _ _) (discardSplit_snd s.cfg.nresult_pos _ _)
  exact exec_ok hp (commandBody_of_stages (.discard _ (discardEngine_of_lt hsplit hroom)))

end Sys2Proof.Machine
end

section
/-! PROOFS. Drawing and discarding as moves along the results of the engine's window: where an engine stands, and what
one NEXT and one DISCARD do to that position (R270 to R272, R279). -/
namespace Sys2Proof.Machine

/-! ### Where an engine stands in its window -/

/-- The number of results from the start of the window's block 0 to the engine's next result: blocks before the one
ST.CTR names, and results drawn of that one. -/
def drawPosition (c : Cfg) (e : Engine) : Nat := lowPart c.ctrBits (ctrSeq c e) * c.nresult + e.cursor.toNat

/-- The position with every result of the window's last block drawn. -/
def windowEnd (c : Cfg) : Nat := 2 ^ c.ctrBits * c.nresult

/-- The end of the block ST.CTR names is inside the window. -/
theorem block_end_le_windowEnd (c : Cfg) (e : Engine) :
    lowPart c.ctrBits (ctrSeq c e) * c.nresult + c.nresult ≤ windowEnd c := by
  rw [← Nat.succ_mul]
  exact Nat.mul_le_mul_right _ (lowPart_lt _ _)

theorem drawPosition_le {c : Cfg} {e : Engine} (he : EngineInv c e) : drawPosition c e ≤ windowEnd c :=
  le_trans (Nat.add_le_add_left he.cursorRange _) (block_end_le_windowEnd c e)

/-- A later block with a result drawn is further on than any cursor of an earlier one. -/
theorem block_le_of_position_le {nr a b x y : Nat} (hx : x ≤ nr) (hy : 0 < y) (h : b * nr + y ≤ a * nr + x) :
    b ≤ a := by
  by_contra hlt
  have hnext := Nat.mul_le_mul_right nr (Nat.lt_of_not_le hlt)
  rw [Nat.succ_mul] at hnext
  omega

/-- A position determines block and cursor, once it is known whether the cursor stands before the block's first result
(cursor 0) or past the last one of the block before. -/
theorem block_and_cursor_inj {nr a b x y : Nat} (hnr : 0 < nr) (hx : x ≤ nr) (hy : y ≤ nr) (hzero : x = 0 ↔ y = 0)
    (h : a * nr + x = b * nr + y) : a = b ∧ x = y := by
  have hab : a = b := by
    obtain rfl | hpos := Nat.eq_zero_or_pos x
    · rw [hzero.mp rfl] at h
      exact Nat.eq_of_mul_eq_mul_right hnr h
    · have hy0 : 0 < y := by omega
      exact Nat.le_antisymm (block_le_of_position_le hy hpos h.le) (block_le_of_position_le hx hy0 h.ge)
  subst hab
  exact ⟨rfl, Nat.add_left_cancel h⟩

/-- `f` is `e` with `n` results drawn or discarded: n positions on, with key and base part kept. Only an engine that
stands before its block's first result and moves by nothing is left there; every other block boundary is reached with
the cursor at Nresult (R272, conflict C8). -/
structure Ahead (c : Cfg) (n : Nat) (e f : Engine) : Prop where
  inv : EngineInv c f
  key : f.key = e.key
  base : highPart c.ctrBits (ctrSeq c f) = highPart c.ctrBits (ctrSeq c e)
  position : drawPosition c f = drawPosition c e + n
  atStart : f.cursor.toNat = 0 ↔ e.cursor.toNat = 0 ∧ n = 0

namespace Ahead

theorem refl {c : Cfg} {e : Engine} (he : EngineInv c e) : Ahead c 0 e e := ⟨he, rfl, rfl, rfl, by simp⟩

theorem trans {c : Cfg} {a b : Nat} {e f g : Engine} (hef : Ahead c a e f) (hfg : Ahead c b f g) :
    Ahead c (a + b) e g where
  inv := hfg.inv
  key := hfg.key.trans hef.key
  base := hfg.base.trans hef.base
  position := by rw [hfg.position, hef.position, Nat.add_assoc]
  atStart := by rw [hfg.atStart, hef.atStart, Nat.add_eq_zero_iff, and_assoc]

/-- Moving stays inside the window. -/
theorem le_windowEnd {c : Cfg} {n : Nat} {e f : Engine} (h : Ahead c n e f) : drawPosition c e + n ≤ windowEnd c :=
  h.position ▸ drawPosition_le h.inv

/-- The number of results moved by determines the engine, as R275 compares engines. -/
theorem engineEq {c : Cfg} {n : Nat} {e f g : Engine} (hf : Ahead c n e f) (hg : Ahead c n e g) :
    engineEq c f g = true := by
  obtain ⟨hlow, hcursor⟩ := block_and_cursor_inj c.nresult_pos hf.inv.cursorRange hg.inv.cursorRange
    (hf.atStart.trans hg.atStart.symm) (hf.position.trans hg.position.symm)
  have hctr : ctrSeq c f = ctrSeq c g :=
    val_inj (by simp) (by rw [← high_low c.ctrBits, ← high_low c.ctrBits, hlow, hf.base, hg.base])
  have hkey : keySeq c f = keySeq c g := by rw [keySeq, keySeq, hf.key, hg.key]
  simp [Machine.engineEq, isEqual, hctr, hkey, BitVec.eq_of_toNat_eq hcursor]

end Ahead

/-! ### One NEXT -/

/-- The first part of NEXT stays where it is: past the last result of a block is before the first of the next. -/
theorem drawPosition_refill {c : Cfg} {e f : Engine} (h : refill c e = some f) :
    drawPosition c f = drawPosition c e := by
  obtain ⟨-, rfl⟩ | ⟨hcursor, ctr, hincr, rfl⟩ := refill_eq_some h
  · rfl
  · obtain ⟨hlow, -, hlen, -⟩ := incr_ctrSeq hincr
    rw [drawPosition, drawPosition, ctrSeq_of_ctr_eq_hold rfl hlen, hlow, hcursor, Nat.succ_mul]
    rfl

theorem ahead_advance_refill {c : Cfg} {e f : Engine} (he : EngineInv c e) (h : refill c e = some f) :
    Ahead c 1 e (advance f) := by
  obtain ⟨hf, hlt⟩ := refill_inv he h
  have hcursor := toNat_advance_cursor hlt
  refine ⟨advance_inv hf hlt, refill_key (f := f) h, refill_highPart (f := f) h, ?_, by omega⟩
  rw [← drawPosition_refill h, drawPosition, hcursor]
  rfl

/-- NEXT fails exactly at the window's end (R270). -/
theorem refill_eq_none_iff_windowEnd {c : Cfg} {e : Engine} (he : EngineInv c e) :
    refill c e = none ↔ drawPosition c e = windowEnd c := by
  have hle := drawPosition_le he
  obtain hlt | heq := Nat.lt_or_eq_of_le he.cursorRange
  · have hblock := block_end_le_windowEnd c e
    simp only [refill_fresh hlt, reduceCtorEq, false_iff, drawPosition]
    omega
  · have hpos : drawPosition c e = (lowPart c.ctrBits (ctrSeq c e) + 1) * c.nresult := by
      rw [drawPosition, heq, Nat.succ_mul]
    rw [refill_eq_none_iff heq, ← Nat.mul_le_mul_right_iff c.nresult_pos, ← hpos]
    exact (Nat.le_antisymm_iff.trans (and_iff_right hle)).symm

/-! ### One DISCARD -/

theorem ahead_discardEngine {c : Cfg} {n : Nat} {e f : Engine} (he : EngineInv c e)
    (h : discardEngine c n e = some f) : Ahead c n e f := by
  obtain ⟨ctr, -, hkey, -, hcursor, -⟩ := discardEngine_eq_some h
  obtain ⟨hle, hsum, hzero, -⟩ := discardSplit_spec (cur := e.cursor.toNat) (n := n) c.nresult_pos
  obtain ⟨hlow, hhigh⟩ := discardEngine_ctrSeq h
  have hcur : f.cursor.toNat = (discardSplit c.nresult e.cursor.toNat n).1 := by
    rw [hcursor, c.toNat_cursor _ hle]
  refine ⟨discardEngine_inv he h, hkey, hhigh, ?_, ?_⟩
  · rw [drawPosition, drawPosition, hlow, hcur, Nat.add_mul]
    omega
  · rw [hcur]
    exact ⟨hzero, fun ⟨h1, h2⟩ => by omega⟩

/-- DISCARD n fails exactly when it would pass the window's end (R271). -/
theorem discardEngine_eq_none_iff_windowEnd {c : Cfg} {n : Nat} {e : Engine} :
    discardEngine c n e = none ↔ windowEnd c < drawPosition c e + n := by
  obtain ⟨hle, hsum, hzero, -⟩ := discardSplit_spec (cur := e.cursor.toNat) (n := n) c.nresult_pos
  have hlow := lowPart_lt c.ctrBits (ctrSeq c e)
  rw [discardEngine_eq_none_iff]
  generalize (discardSplit c.nresult e.cursor.toNat n).1 = cursor at *
  generalize (discardSplit c.nresult e.cursor.toNat n).2 = k at *
  have hpos : drawPosition c e + n = (lowPart c.ctrBits (ctrSeq c e) + k) * c.nresult + cursor := by
    rw [drawPosition, Nat.add_mul]; omega
  rw [hpos, windowEnd]
  constructor
  · intro hover
    have hcursor : cursor ≠ 0 := by
      intro h0
      obtain ⟨hcur, hn⟩ := hzero h0
      have hk : k = 0 := (Nat.mul_eq_zero.mp (by omega)).resolve_right (Nat.ne_of_gt c.nresult_pos)
      omega
    have hblocks := Nat.mul_le_mul_right c.nresult hover
    omega
  · exact fun hover => block_le_of_position_le (nr := c.nresult) hle Nat.one_pos hover

end Sys2Proof.Machine
end

section
/-! PROOFS. NEXT and DISCARD issued one after another: discards against draws and against each other, the exhaustion
boundary and the output stream (R277, R279 to R281). -/
namespace Sys2Proof.Machine

/-! ### Commands issued one after another -/

theorem issue_of_ok {i : Instr} {s : State} {x : Engine × Results}
    (h : commandBody s.cfg s.eng s.res s.stg i = .ok x) :
    issue i s = .next (commit ⟨encode i, s.stg⟩ (staged (accept (encode i) s) x)) :=
  exec_ok (s := accept (encode i) s) rfl h

theorem issue_of_error {i : Instr} {s : State} {e : CmdError}
    (h : commandBody s.cfg s.eng s.res s.stg i = .error e) :
    issue i s = .next (failWith ⟨encode i, s.stg⟩ e (accept (encode i) s)) :=
  exec_error (s := accept (encode i) s) rfl h

theorem not_ok_failWith (p : Pending) (e : CmdError) (s : State) : ¬Ok (failWith p e s) := errorCode_ne_ok e

/-- What issuing NEXT does: a draw, or at the window's end a failure (R270). -/
theorem issue_next_cases {c : Cfg} {s : State} (hcfg : s.cfg = c) (he : EngineInv c s.eng) :
    (∃ f t, refill c s.eng = some f ∧ issue .next s = .next t ∧ Ok t ∧ t.cfg = c ∧ t.eng = advance f ∧
        t.res.result = resultRegs (drawn c f)) ∨
      (drawPosition c s.eng = windowEnd c ∧
        ∃ t, issue .next s = .next t ∧ ¬Ok t ∧ t.status.code = 0x01 ∧ t.status.detail = 0x00 ∧ t.eng = s.eng) := by
  subst hcfg
  cases hrefill : refill s.cfg s.eng with
  | some f =>
    exact .inl ⟨f, _, rfl, issue_of_ok (commandBody_of_stages (.next f hrefill)), rfl, rfl, rfl, rfl⟩
  | none =>
    exact .inr ⟨(refill_eq_none_iff_windowEnd he).mp hrefill, _,
      issue_of_error (commandBody_next_eq_error_iff.mpr hrefill), not_ok_failWith _ _ _, rfl, rfl, rfl⟩

/-- What DISCARD n does: n positions on when that stays inside the window, and nothing when it fails (R271). -/
theorem discards_spec {c : Cfg} {s : State} (hcfg : s.cfg = c) (he : EngineInv c s.eng) (n : Reg) :
    ∃ t, discards n s = .next t ∧ t.cfg = c ∧ (Ok t ↔ drawPosition c s.eng + n.toNat ≤ windowEnd c) ∧
      (Ok t → Ahead c n.toNat s.eng t.eng) ∧ (¬Ok t → t.eng = s.eng) := by
  subst hcfg
  cases hdiscard : discardEngine s.cfg n.toNat s.eng with
  | some f =>
    have hbody := commandBody_of_stages (r := s.res) (snap := { s.stg with arg := n }) (.discard f hdiscard)
    have hahead := ahead_discardEngine he hdiscard
    exact ⟨_, issue_of_ok (s := withArg n s) hbody, rfl, iff_of_true rfl hahead.le_windowEnd, fun _ => hahead,
      fun hfail => absurd rfl hfail⟩
  | none =>
    have hbody := (commandBody_discard_eq_error_iff (r := s.res) (snap := { s.stg with arg := n })).mpr hdiscard
    have hover := discardEngine_eq_none_iff_windowEnd.mp hdiscard
    exact ⟨_, issue_of_error (s := withArg n s) hbody, rfl,
      iff_of_false (not_ok_failWith _ _ _) (Nat.not_le.mpr hover),
      fun hok => absurd hok (not_ok_failWith _ _ _), fun _ => rfl⟩

theorem draws_succ_of_ok {s t : State} (n : Nat) (h : issue .next s = .next t) (hok : Ok t) :
    draws (n + 1) s = draws n t := by
  rw [draws, h]
  exact if_pos hok

theorem draws_succ_of_not_ok {s t : State} (n : Nat) (h : issue .next s = .next t) (hok : ¬Ok t) :
    draws (n + 1) s = none := by
  rw [draws, h]
  exact if_neg hok

/-- What n NEXTs do: n positions on, or a failure of one of them when that passes the window's end (R270, R279). -/
theorem draws_cases (n : Nat) {c : Cfg} {s : State} (hcfg : s.cfg = c) (he : EngineInv c s.eng) :
    (∃ u, draws n s = some u ∧ u.cfg = c ∧ Ahead c n s.eng u.eng) ∨
      (draws n s = none ∧ windowEnd c < drawPosition c s.eng + n) := by
  induction n generalizing s with
  | zero => exact .inl ⟨s, rfl, hcfg, .refl he⟩
  | succ n ih =>
    obtain ⟨f, t, hrefill, ht, hok, htcfg, heng, -⟩ | ⟨hend, t, ht, hfail, -⟩ := issue_next_cases hcfg he
    · have hone : Ahead c 1 s.eng t.eng := heng ▸ ahead_advance_refill he hrefill
      rw [draws_succ_of_ok n ht hok]
      obtain ⟨u, hu, hucfg, hahead⟩ | ⟨hnone, hover⟩ := ih htcfg hone.inv
      · exact .inl ⟨u, hu, hucfg, Nat.add_comm 1 n ▸ hone.trans hahead⟩
      · have hpos := hone.position
        exact .inr ⟨hnone, by omega⟩
    · exact .inr ⟨draws_succ_of_not_ok n ht hfail, by omega⟩

/-- The state that n successful NEXTs reach (R270). -/
theorem ahead_of_draws {n : Nat} {c : Cfg} {s u : State} (hcfg : s.cfg = c) (he : EngineInv c s.eng)
    (h : draws n s = some u) : u.cfg = c ∧ Ahead c n s.eng u.eng := by
  obtain ⟨u', hu', hahead⟩ | ⟨hnone, -⟩ := draws_cases n hcfg he
  · obtain rfl : u' = u := Option.some.inj (hu'.symm.trans h)
    exact hahead
  · cases hnone.symm.trans h

/-- n NEXTs all succeed exactly when they stay inside the window (R279). -/
theorem draws_eq_some_iff {n : Nat} {c : Cfg} {s : State} (hcfg : s.cfg = c) (he : EngineInv c s.eng) :
    (∃ u, draws n s = some u) ↔ drawPosition c s.eng + n ≤ windowEnd c := by
  obtain ⟨u, hu, -, hahead⟩ | ⟨hnone, hover⟩ := draws_cases n hcfg he
  · exact iff_of_true ⟨u, hu⟩ hahead.le_windowEnd
  · exact iff_of_false (by simp [hnone]) (Nat.not_le.mpr hover)

/-! ### DISCARD against draws and against DISCARD (R280, R281) -/

/-- Settles O57: both move n positions on, or fail because that passes the window's end. -/
theorem discardEqualsDraws : Obligations.DiscardEqualsDraws := by
  intro s n _ hinv
  obtain ⟨t, ht, -, hroom, hahead, hkept⟩ := discards_spec rfl hinv.engine n
  have hok : Ok t ↔ ∃ u, draws n.toNat s = some u := hroom.trans (draws_eq_some_iff rfl hinv.engine).symm
  refine ⟨t, ht, hok, fun u hu => ?_, fun hnone => hkept fun h => ?_⟩
  · obtain ⟨-, hdrawn⟩ := ahead_of_draws rfl hinv.engine hu
    exact hdrawn.engineEq (hahead (hok.mpr ⟨u, hu⟩))
  · obtain ⟨u, hu⟩ := hok.mp h
    cases hnone.symm.trans hu

/-- Settles O58: positions add, and the window's end is one for all three commands. -/
theorem discardAdds : Obligations.DiscardAdds := by
  intro s a b _ hinv hsum
  have hab : (a + b).toNat = a.toNat + b.toNat := by rw [BitVec.toNat_add, Nat.mod_eq_of_lt hsum]
  obtain ⟨t, ht, htcfg, htroom, htahead, htkept⟩ := discards_spec rfl hinv.engine a
  obtain ⟨w, hw, -, hwroom, hwahead, -⟩ := discards_spec rfl hinv.engine (a + b)
  rw [hab] at hwroom hwahead
  by_cases htok : Ok t
  · obtain ⟨u, hu, -, huroom, huahead, -⟩ := discards_spec htcfg (htahead htok).inv b
    rw [(htahead htok).position, Nat.add_assoc, ← hwroom] at huroom
    exact ⟨t, u, w, ht, hu, hw, (and_iff_right htok).trans huroom,
      fun hok => ((htahead htok).trans (huahead (huroom.mpr hok))).engineEq (hwahead hok)⟩
  · obtain ⟨u, hu, -⟩ := discards_spec htcfg (htkept htok ▸ hinv.engine) b
    have hwfail : ¬Ok w := by rw [htroom] at htok; rw [hwroom]; omega
    exact ⟨t, u, w, ht, hu, hw, iff_of_false (fun h => htok h.1) hwfail, fun hok => absurd hok hwfail⟩

/-! ### The exhaustion boundary and the output stream (R277, R279) -/

/-- Right after a seed or RESTART an engine stands past the last result of its window's block 0. -/
theorem drawPosition_base {c : Cfg} {e : Engine} (hcursor : e.cursor.toNat = c.nresult)
    (hlow : lowPart c.ctrBits (ctrSeq c e) = 0) : drawPosition c e = c.nresult := by
  rw [drawPosition, hlow, hcursor, Nat.zero_mul, Nat.zero_add]

theorem windowEnd_eq (c : Cfg) : windowEnd c = c.nresult + (2 ^ c.ctrBits - 1) * c.nresult := by
  rw [windowEnd, Nat.add_comm, ← Nat.succ_mul, Nat.succ_eq_add_one, Nat.sub_add_cancel (Nat.two_pow_pos _)]

/-- Settles O59: the base stands one block past the window's start, and every draw moves one position on. -/
theorem exhaustionBoundary : Obligations.ExhaustionBoundary := by
  intro s n _ hinv hcursor hlow
  have hbase := drawPosition_base hcursor hlow
  have hend := windowEnd_eq s.cfg
  refine ⟨?_, fun u hu => ?_⟩
  · rw [draws_eq_some_iff rfl hinv.engine, hbase, hend, Nat.add_le_add_iff_left]
  · obtain ⟨hucfg, hahead⟩ := ahead_of_draws rfl hinv.engine hu
    have hpos := hahead.position
    obtain ⟨f, t, hrefill, -⟩ | ⟨-, t, ht, -, hlast⟩ := issue_next_cases hucfg hahead.inv
    · have hroom := (refill_eq_none_iff_windowEnd hahead.inv).mpr (by omega)
      rw [hrefill] at hroom
      cases hroom
    · exact ⟨t, ht, hlast⟩

/-- The result a refilled engine gives is its cursor's of the PRF's block at its counter (I1 of R34). -/
theorem drawn_eq {c : Cfg} {e : Engine} (he : EngineInv c e) (hlt : e.cursor.toNat < c.nresult) :
    drawn c e = atW c.w e.cursor.toNat (prf c (keySeq c e) (ctrSeq c e)) := by
  rw [drawn, he.coherent hlt]

/-- Block and cursor of an engine with a result left in its block, from its position. -/
theorem drawPosition_div_mod {c : Cfg} {e : Engine} (hlt : e.cursor.toNat < c.nresult) :
    drawPosition c e / c.nresult = lowPart c.ctrBits (ctrSeq c e) ∧
      drawPosition c e % c.nresult = e.cursor.toNat := by
  rw [drawPosition, Nat.mul_comm, Nat.mul_add_div c.nresult_pos, Nat.mul_add_mod, Nat.div_eq_of_lt hlt,
    Nat.mod_eq_of_lt hlt, Nat.add_zero]
  exact ⟨rfl, rfl⟩

/-- The result drawn j positions past a base is the stream's j-th (R277). -/
theorem drawn_eq_streamResult {c : Cfg} {j : Nat} {e u f : Engine} (hcursor : e.cursor.toNat = c.nresult)
    (hlow : lowPart c.ctrBits (ctrSeq c e) = 0) (hahead : Ahead c j e u) (hrefill : refill c u = some f) :
    drawn c f = streamResult c (keySeq c e) (ctrSeq c e) j := by
  obtain ⟨hf, hlt⟩ := refill_inv hahead.inv hrefill
  have hpos : drawPosition c f = c.nresult + j := by
    rw [drawPosition_refill hrefill, hahead.position, drawPosition_base hcursor hlow]
  obtain ⟨hblock, hresult⟩ := drawPosition_div_mod hlt
  rw [hpos, Nat.add_div_left j c.nresult_pos] at hblock
  rw [hpos, Nat.add_mod_left] at hresult
  have hkey : keySeq c f = keySeq c e := by rw [keySeq, keySeq, refill_key hrefill, hahead.key]
  have hhigh := (refill_highPart hrefill).trans hahead.base
  have hval : val (ctrSeq c f) = val (ctrSeq c e) + 1 + j / c.nresult := by
    rw [← high_low c.ctrBits (ctrSeq c f), ← high_low c.ctrBits (ctrSeq c e), hhigh, ← hblock, hlow]
    omega
  rw [drawn_eq hf hlt, streamResult, hkey, ← hval, wordsOf_val_of_length (ctrSeq_length c f), hresult]

/-- Settles O60: j draws stand j positions past the base, short of the window's end. -/
theorem outputStream : Obligations.OutputStream := by
  intro s u j _ hinv hcursor hlow hu hj
  obtain ⟨hucfg, hahead⟩ := ahead_of_draws rfl hinv.engine hu
  obtain ⟨f, t, hrefill, ht, hok, -, -, hresult⟩ | ⟨hlast, -⟩ := issue_next_cases hucfg hahead.inv
  · rw [drawn_eq_streamResult hcursor hlow hahead hrefill] at hresult
    exact ⟨t, ht, hok, hresult⟩
  · have hpos := hahead.position
    have hbase := drawPosition_base hcursor hlow
    have hend := windowEnd_eq s.cfg
    omega

end Sys2Proof.Machine
end

section
/-! PROOFS. What a failure leaves unchanged, and that it repeats (R300, R303, R309). -/
namespace Sys2Proof.Machine

/-- The command in flight fails with the error: its word is illegal, or its body answers the error. Of the block only
the configuration, the engine, the result registers and the record in PEND matter to that. -/
def FailsWith (c : Cfg) (e : Engine) (r : Results) (p : Pending) (err : CmdError) : Prop :=
  (∃ d, decode p.cmd = .error d ∧ err = .illegal d) ∨
    ∃ i, decode p.cmd = .ok i ∧ commandBody c e r p.snap i = .error err

theorem complete_of_failsWith {s : State} {p : Pending} {err : CmdError} (hp : s.pend = some p)
    (h : FailsWith s.cfg s.eng s.res p err) : complete s = .next (failWith p err s) := by
  obtain ⟨d, hdecode, rfl⟩ | ⟨i, hdecode, hbody⟩ := h
  · exact complete_of_decode_error hp hdecode
  · rw [complete_of_decode_ok hp hdecode, exec_error hp hbody]

/-- A Complete step that ends with a CODE other than OK went through `failWith`: a committed command has CODE OK. -/
theorem failsWith_of_complete {s t : State} (h : complete s = .next t) (hcode : t.status.code ≠ 0x00) :
    ∃ p err, s.pend = some p ∧ FailsWith s.cfg s.eng s.res p err ∧ t = failWith p err s := by
  obtain ⟨p, hp, ⟨i, hdecode, hexec⟩ | ⟨d, hdecode, ht⟩⟩ := complete_eq_next.mp h
  · obtain ⟨q, hq, ⟨x, -, rfl⟩ | ⟨err, hbody, ht⟩⟩ := exec_eq_next.mp hexec
    · exact absurd rfl hcode
    · obtain rfl : p = q := Option.some.inj (hp.symm.trans hq)
      exact ⟨p, err, hp, .inr ⟨i, hdecode, hbody⟩, ht⟩
  · exact ⟨p, .illegal d, hp, .inl ⟨d, hdecode, rfl⟩, ht⟩

/-- Settles O24: `failWith` writes CODE, DETAIL and LASTOP, and empties PEND. -/
theorem failureChangesNothing : Obligations.FailureChangesNothing := by
  intro s t h hcode
  obtain ⟨p, err, -, -, rfl⟩ := failsWith_of_complete h hcode
  exact ⟨rfl, rfl⟩

/-- Settles O25: a failure keeps all that its error depends on, so with the record back in PEND the error is the same,
and writing it again changes nothing. -/
theorem failureRepeats : Obligations.FailureRepeats := by
  intro s t h hcode
  obtain ⟨p, err, hp, hfails, rfl⟩ := failsWith_of_complete h hcode
  have hagain := complete_of_failsWith (s := { failWith p err s with pend := s.pend }) hp hfails
  exact ⟨_, hagain, rfl, rfl, rfl⟩

end Sys2Proof.Machine
end

section
/-! PROOFS. DROPPED: a CMD write while busy sets it, and only Reset and the acceptance of CLRST clear it (R344). -/
namespace Sys2Proof.Machine

/-- No completion writes DROPPED, that of an illegal word included (R303, R304). -/
theorem complete_keeps_dropped {s t : State} (h : complete s = .next t) : t.status.dropped = s.status.dropped := by
  obtain ⟨p, -, ⟨i, -, hexec⟩ | ⟨e, -, rfl⟩⟩ := complete_eq_next.mp h
  · obtain ⟨-, -, -, hdropped, -⟩ := commandFrame i s t hexec
    exact hdropped
  · exact failWith_dropped p (.illegal e) s

/-- A write to the port clears DROPPED only by the acceptance of CLRST's word (R274, R343). -/
theorem regWrite_keeps_dropped_or_accepts_clrst {s : State} (hdropped : s.status.dropped = true) (i : Index) (x : Reg) :
    (regWrite i x s).status.dropped = true ∨ (s.pend = none ∧ x = 0x0F ∧ regWrite i x s = accept x s) := by
  obtain heq | ⟨stg, heq⟩ | ⟨hidle, heq⟩ | ⟨-, heq⟩ := regWrite_cases i x s
  · exact .inl (by rw [heq, hdropped])
  · exact .inl (by rw [heq, hdropped])
  · by_cases hx : x = 0x0F
    · exact .inr ⟨by simpa [busy] using hidle, hx, heq⟩
    · exact .inl (by rw [heq, accept_dropped, droppedAfterAccept_eq, if_neg hx, hdropped])
  · exact .inl (by rw [heq])

/-- DROPPED is sticky (R344): a step keeps it, or is Reset, or accepts CLRST on an idle block. -/
theorem step_keeps_dropped {s t : State} (hdropped : s.status.dropped = true) (h : step s = .next t) :
    t.status.dropped = true ∨ s.inputs.head? = some .reset ∨
      (s.pend = none ∧ ∃ p, t.pend = some p ∧ p.cmd = 0x0F ∧ t.cmd = 0x0F) := by
  obtain ⟨-, hquiet⟩ | ⟨e, rest, hin, hserve⟩ := step_eq_next h
  · obtain hcomplete | rfl := hquiet
    · exact .inl ((complete_keeps_dropped hcomplete).trans hdropped)
    · exact .inl hdropped
  · obtain ⟨i, rfl⟩ | ⟨i, x, rfl⟩ | ⟨-, hcomplete⟩ | ⟨rfl, -⟩ := hserve
    · exact .inl hdropped
    · obtain hkept | ⟨hidle, rfl, haccept⟩ :=
        regWrite_keeps_dropped_or_accepts_clrst (s := { s with inputs := rest }) hdropped i x
      · exact .inl hkept
      · rw [haccept]
        exact .inr (.inr ⟨hidle, _, rfl, rfl, rfl⟩)
    · exact .inl ((complete_keeps_dropped hcomplete).trans hdropped)
    · exact .inr (.inl (by rw [hin, List.head?_cons]))

/-- Settles O7: the write while busy sets DROPPED alone, DROPPED is sticky, and it is bit 1 of STATUS. -/
theorem cmdWriteDroppedWhenBusy : Obligations.CmdWriteDroppedWhenBusy := by
  refine ⟨fun s p cw rest hp hin => ?_, fun s t hdropped h => step_keeps_dropped hdropped h, fun s => ?_⟩
  · have hbusy : ({ s with inputs := rest } : State).pend = some p := hp
    rw [step_of_inputs_cons hin, serve, regWrite_cmd_busy hbusy]
  · obtain ⟨-, hdropped, -⟩ := statusFields s
    exact hdropped

end Sys2Proof.Machine
end
